-- ==== Sys2Proof/Word.lean ====
section
/-! DEFINITION. The machine's words: bytes, 16-bit words, register numbers and the key input. -/

namespace Sys2Proof

/-- An 8-bit unsigned value: a register V0..VF, a timer, a byte of memory (10_state.md R20, R28, R37). -/
abbrev Byte := BitVec 8

/-- A 16-bit unsigned value: I, PC, a stack slot, an opcode (10_state.md R22, R25, R27; 30_encoding.md R70). -/
abbrev Word := BitVec 16

/-- The number of a general register, 0x0..0xF (10_state.md R20). -/
abbrev Reg := Fin 16

/-- Register number 0xF: VF, the flag register (10_state.md R21). -/
abbrev vf : Reg := 15

/-- Sixteen booleans, one for each key 0x0..0xF, true while the key is held (10_state.md R33). -/
abbrev Keys := Vector Bool 16

/-- `zext_16` of 00_scope.md R8. -/
abbrev zext16 {n : Nat} (v : BitVec n) : Word := v.setWidth 16

end Sys2Proof
end

