-- ==== Sys2Proof/Machine/Flags.lean ====
section
/-! DEFINITION. The value each flag-writing instruction puts in VF (10_state.md R21). -/

namespace Sys2Proof.Machine

/-- A flag as the byte VF holds: 1 or 0. -/
def flagByte (b : Bool) : Byte := if b then 1 else 0

/-- 8XY4: "`1` if the unmodded sum exceeds 255, else `0`" (42_alu.md R138). -/
def carryFlag (a b : Byte) : Byte := flagByte (decide (a.toNat + b.toNat > 255))

/-- 8XY5 computes a − b and 8XY7 computes b − a; the flag is 1 when nothing is borrowed (42_alu.md
R139, R141). -/
def noBorrowFlag (minuend subtrahend : Byte) : Byte :=
  flagByte (decide (minuend.toNat ≥ subtrahend.toNat))

/-- 8XY6: "`VF := Vx & 1`" (42_alu.md R140). -/
def shiftedOutRight (a : Byte) : Byte := a &&& 1

/-- 8XYE: "`VF := (Vx >> 7) & 1`" (42_alu.md R142). -/
def shiftedOutLeft (a : Byte) : Byte := (a >>> 7) &&& 1

/-- DXYN: 1 on a collision, else 0 (44_display.md R182, R185). -/
def collisionFlag (collide : Bool) : Byte := flagByte collide

end Sys2Proof.Machine
end

