-- ==== Sys2Proof/Syntax.lean ====
section
/-! DEFINITION. The 34 instructions of 30_encoding.md R80, one constructor each, in the table's order. -/

namespace Sys2Proof

/-- One decoded instruction (30_encoding.md R80). `x` and `y` are register numbers, `kk` an immediate
byte, `nnn` a 12-bit address and `n` a count of sprite rows, which `WellFormed` bounds by 15. -/
inductive Instr where
  /-- 00E0, R180 -/
  | cls
  /-- 00EE, R113 -/
  | ret
  /-- 1NNN, R111 -/
  | jp (nnn : BitVec 12)
  /-- 2NNN, R112 -/
  | call (nnn : BitVec 12)
  /-- 3XKK, R114 -/
  | seImm (x : Reg) (kk : Byte)
  /-- 4XKK, R115 -/
  | sneImm (x : Reg) (kk : Byte)
  /-- 5XY0, R116 -/
  | seReg (x y : Reg)
  /-- 6XKK, R132 -/
  | ldImm (x : Reg) (kk : Byte)
  /-- 7XKK, R133 -/
  | addImm (x : Reg) (kk : Byte)
  /-- 8XY0, R134 -/
  | ldReg (x y : Reg)
  /-- 8XY1, R135 -/
  | orReg (x y : Reg)
  /-- 8XY2, R136 -/
  | andReg (x y : Reg)
  /-- 8XY3, R137 -/
  | xorReg (x y : Reg)
  /-- 8XY4, R138 -/
  | addReg (x y : Reg)
  /-- 8XY5, R139 -/
  | subReg (x y : Reg)
  /-- 8XY6, R140; field y is ignored (R74) -/
  | shr (x : Reg)
  /-- 8XY7, R141 -/
  | subnReg (x y : Reg)
  /-- 8XYE, R142; field y is ignored (R74) -/
  | shl (x : Reg)
  /-- 9XY0, R118 -/
  | sneReg (x y : Reg)
  /-- ANNN, R160 -/
  | ldI (nnn : BitVec 12)
  /-- BNNN, R117 -/
  | jpV0 (nnn : BitVec 12)
  /-- CXKK, R143 -/
  | rnd (x : Reg) (kk : Byte)
  /-- DXYN, R182 -/
  | drw (x y : Reg) (n : Nat)
  /-- EX9E, R200 -/
  | skp (x : Reg)
  /-- EXA1, R201 -/
  | sknp (x : Reg)
  /-- FX07, R202 -/
  | ldVxDT (x : Reg)
  /-- FX0A, R203 -/
  | ldVxK (x : Reg)
  /-- FX15, R204 -/
  | ldDTVx (x : Reg)
  /-- FX18, R205 -/
  | ldSTVx (x : Reg)
  /-- FX1E, R162 -/
  | addI (x : Reg)
  /-- FX29, R163 -/
  | ldF (x : Reg)
  /-- FX33, R164 -/
  | ldB (x : Reg)
  /-- FX55, R166 -/
  | ldStore (x : Reg)
  /-- FX65, R167 -/
  | ldLoad (x : Reg)
  deriving DecidableEq, Repr

end Sys2Proof
end

