-- ==== Sys2Proof/Decode.lean ====
section
/-! DEFINITION. From opcodes to instructions (30_encoding.md R70..R78), and the encoder back. -/

namespace Sys2Proof

/-- Why bytes are no instruction. -/
inductive DecodeError where
  /-- The opcode is one of the illegal ones (30_encoding.md R78). The step then raises the error
  UnknownOpcode, so nothing stops here. -/
  | unknownOpcode (op : Word)
  /-- Fewer than the two bytes every instruction has (30_encoding.md R70). A fetch always supplies
  two, so no step meets it. Safe. Log entry 14. -/
  | truncated
  deriving DecidableEq, Repr

/-- Bits `lo+3 .. lo` of the opcode, as a register number or a count (30_encoding.md R72). -/
def nibble (op : Word) (lo : Nat) : Fin 16 := (op.extractLsb' lo 4).toFin

/-- `x = op[11:8]` (30_encoding.md R72). -/
def fieldX (op : Word) : Reg := nibble op 8

/-- `y = op[7:4]` (30_encoding.md R72). -/
def fieldY (op : Word) : Reg := nibble op 4

/-- `kk = op[7:0]` (30_encoding.md R72). -/
def fieldKK (op : Word) : Byte := op.extractLsb' 0 8

/-- `nnn = op[11:0]` (30_encoding.md R72). -/
def fieldNNN (op : Word) : BitVec 12 := op.extractLsb' 0 12

/-- Family 8, by its sub-opcode n (30_encoding.md R76). -/
def decodeFamily8 (n : Nat) (op : Word) : Except DecodeError Instr :=
  match n with
  | 0x0 => .ok (.ldReg (fieldX op) (fieldY op))
  | 0x1 => .ok (.orReg (fieldX op) (fieldY op))
  | 0x2 => .ok (.andReg (fieldX op) (fieldY op))
  | 0x3 => .ok (.xorReg (fieldX op) (fieldY op))
  | 0x4 => .ok (.addReg (fieldX op) (fieldY op))
  | 0x5 => .ok (.subReg (fieldX op) (fieldY op))
  | 0x6 => .ok (.shr (fieldX op))
  | 0x7 => .ok (.subnReg (fieldX op) (fieldY op))
  | 0xE => .ok (.shl (fieldX op))
  | _ => .error (.unknownOpcode op)

/-- Family E, by its sub-opcode kk (30_encoding.md R76). -/
def decodeFamilyE (kk : Nat) (op : Word) : Except DecodeError Instr :=
  match kk with
  | 0x9E => .ok (.skp (fieldX op))
  | 0xA1 => .ok (.sknp (fieldX op))
  | _ => .error (.unknownOpcode op)

/-- Family F, by its sub-opcode kk (30_encoding.md R76). -/
def decodeFamilyF (kk : Nat) (op : Word) : Except DecodeError Instr :=
  match kk with
  | 0x07 => .ok (.ldVxDT (fieldX op))
  | 0x0A => .ok (.ldVxK (fieldX op))
  | 0x15 => .ok (.ldDTVx (fieldX op))
  | 0x18 => .ok (.ldSTVx (fieldX op))
  | 0x1E => .ok (.addI (fieldX op))
  | 0x29 => .ok (.ldF (fieldX op))
  | 0x33 => .ok (.ldB (fieldX op))
  | 0x55 => .ok (.ldStore (fieldX op))
  | 0x65 => .ok (.ldLoad (fieldX op))
  | _ => .error (.unknownOpcode op)

/-- One family's instructions, by the high nibble F (30_encoding.md R76). The high nibble has sixteen
values (R75), so the last arm of the match is never taken. -/
def decodeFamily (F : Nat) (op : Word) : Except DecodeError Instr :=
  match F with
  | 0x0 =>
    if op = 0x00E0#16 then .ok .cls
    else if op = 0x00EE#16 then .ok .ret
    else .error (.unknownOpcode op)
  | 0x1 => .ok (.jp (fieldNNN op))
  | 0x2 => .ok (.call (fieldNNN op))
  | 0x3 => .ok (.seImm (fieldX op) (fieldKK op))
  | 0x4 => .ok (.sneImm (fieldX op) (fieldKK op))
  | 0x5 =>
    if (nibble op 0).val = 0 then .ok (.seReg (fieldX op) (fieldY op))
    else .error (.unknownOpcode op)
  | 0x6 => .ok (.ldImm (fieldX op) (fieldKK op))
  | 0x7 => .ok (.addImm (fieldX op) (fieldKK op))
  | 0x8 => decodeFamily8 (nibble op 0).val op
  | 0x9 =>
    if (nibble op 0).val = 0 then .ok (.sneReg (fieldX op) (fieldY op))
    else .error (.unknownOpcode op)
  | 0xA => .ok (.ldI (fieldNNN op))
  | 0xB => .ok (.jpV0 (fieldNNN op))
  | 0xC => .ok (.rnd (fieldX op) (fieldKK op))
  | 0xD => .ok (.drw (fieldX op) (fieldY op) (nibble op 0).val)
  | 0xE => decodeFamilyE (fieldKK op).toNat op
  | 0xF => decodeFamilyF (fieldKK op).toNat op
  | _ => .error (.unknownOpcode op)

/-- The decoder of 30_encoding.md R76, total on all 65536 opcodes: dispatch on the high nibble. -/
def decode (op : Word) : Except DecodeError Instr := decodeFamily (nibble op 12).val op

/-- The big-endian joining of two bytes: the byte at the lower address supplies bits 15..8
(20_memory.md R53). -/
def joinBytes (hi lo : Byte) : Word := hi ++ lo

/-- Decoding from a byte sequence: an instruction is two bytes, and the rest is handed on
(30_encoding.md R70). -/
def decodeBytes : List Byte → Except DecodeError (Instr × List Byte)
  | hi :: lo :: rest =>
    match decode (joinBytes hi lo) with
    | .ok i => .ok (i, rest)
    | .error e => .error e
  | [_] => .error .truncated
  | [] => .error .truncated

/-- The opcode-table word laid out in memory order, big-endian (20_memory.md R53), then decoded.
Bits at or above `nbits` are zero. -/
def decodeTableWord (nbits w : Nat) : Option Instr :=
  match decodeBytes [BitVec.ofNat 8 (w % 2 ^ nbits / 256), BitVec.ofNat 8 (w % 2 ^ nbits)] with
  | .ok (i, _) => some i
  | .error _ => none

/-! ### The encoder -/

/-- A register number as a 4-bit field. -/
def regBits (r : Reg) : BitVec 4 := BitVec.ofNat 4 r.val

/-- Format A of 30_encoding.md R71. -/
def packA (f : BitVec 4) (nnn : BitVec 12) : Word := f ++ nnn

/-- Formats XK and X of 30_encoding.md R71. -/
def packXK (f : BitVec 4) (x : Reg) (kk : Byte) : Word := f ++ regBits x ++ kk

/-- Formats XY and XYN of 30_encoding.md R71. -/
def packXYN (f : BitVec 4) (x y : Reg) (n : BitVec 4) : Word := f ++ regBits x ++ regBits y ++ n

/-- The opcode of an instruction (30_encoding.md R80, the encoding line of each instruction's rule).
The ignored field y of 8XY6 and 8XYE is written as 0. -/
def encode : Instr → Word
  | .cls => 0x00E0#16
  | .ret => 0x00EE#16
  | .jp nnn => packA 0x1#4 nnn
  | .call nnn => packA 0x2#4 nnn
  | .seImm x kk => packXK 0x3#4 x kk
  | .sneImm x kk => packXK 0x4#4 x kk
  | .seReg x y => packXYN 0x5#4 x y 0x0#4
  | .ldImm x kk => packXK 0x6#4 x kk
  | .addImm x kk => packXK 0x7#4 x kk
  | .ldReg x y => packXYN 0x8#4 x y 0x0#4
  | .orReg x y => packXYN 0x8#4 x y 0x1#4
  | .andReg x y => packXYN 0x8#4 x y 0x2#4
  | .xorReg x y => packXYN 0x8#4 x y 0x3#4
  | .addReg x y => packXYN 0x8#4 x y 0x4#4
  | .subReg x y => packXYN 0x8#4 x y 0x5#4
  | .shr x => packXYN 0x8#4 x 0 0x6#4
  | .subnReg x y => packXYN 0x8#4 x y 0x7#4
  | .shl x => packXYN 0x8#4 x 0 0xE#4
  | .sneReg x y => packXYN 0x9#4 x y 0x0#4
  | .ldI nnn => packA 0xA#4 nnn
  | .jpV0 nnn => packA 0xB#4 nnn
  | .rnd x kk => packXK 0xC#4 x kk
  | .drw x y n => packXYN 0xD#4 x y (BitVec.ofNat 4 n)
  | .skp x => packXK 0xE#4 x 0x9E#8
  | .sknp x => packXK 0xE#4 x 0xA1#8
  | .ldVxDT x => packXK 0xF#4 x 0x07#8
  | .ldVxK x => packXK 0xF#4 x 0x0A#8
  | .ldDTVx x => packXK 0xF#4 x 0x15#8
  | .ldSTVx x => packXK 0xF#4 x 0x18#8
  | .addI x => packXK 0xF#4 x 0x1E#8
  | .ldF x => packXK 0xF#4 x 0x29#8
  | .ldB x => packXK 0xF#4 x 0x33#8
  | .ldStore x => packXK 0xF#4 x 0x55#8
  | .ldLoad x => packXK 0xF#4 x 0x65#8

end Sys2Proof
end

