-- ==== Sys2Proof/Config.lean ====
section
/-! DEFINITION. What the spec fixes for this core, and what it leaves open. The open values are
constants with no body: a theorem about them holds whatever they are. -/

namespace Sys2Proof

/-- The three treatments of a sprite pixel beyond the grid (44_display.md R184). -/
inductive EdgeMode where
  | wrap
  | clip
  | wrapStartClip
  deriving DecidableEq, Repr, Inhabited

/-- The highest memory address (20_memory.md R50). -/
abbrev Config.lastAddr : Nat := 0xFFF

/-- Where a program image is loaded, and the reset value of PC (00_scope.md R6). -/
abbrev Config.loadAddr : Nat := 0x200

/-- The largest program image, 4096 − 0x200 bytes (00_scope.md R6, 70_reset_and_hazards.md R241). -/
abbrev Config.maxProgram : Nat := 3584

/-- The size of the font table: 16 glyphs of 5 bytes (20_memory.md R51). -/
abbrev Config.fontSize : Nat := 80

/-- EDGE_MODE, left open (00_scope.md R7, 92_eei_decisions.md D14). Safe. Log entry 2. -/
opaque Config.edgeMode : EdgeMode

/-- FONT, the 80 bytes of the font table, left open (00_scope.md R7, 92_eei_decisions.md D26).
Safe. Log entry 1. -/
opaque Config.font : Fin Config.fontSize → Byte

/-- An operation of the host that changes the core (60_exceptions.md R234). -/
inductive HostOp where
  /-- `step()`, with the key state the host wrote for it and the random byte it draws (R90) -/
  | step (keys : Keys) (rnd : Byte)
  /-- `tickTimers()` (R230) -/
  | tickTimers
  /-- `initialize(program)` (R240) -/
  | initProgram (program : List Byte)
  deriving DecidableEq, Repr, Inhabited

/-- The n-th operation of a host that no list gives, left open: which of the three it is (60_exceptions.md
R231: "The model treats the interleaving of `tickTimers` and `step` as free"; 70_reset_and_hazards.md
R245), the KEYS and the RND of a step, "a fresh, unconstrained 8-bit input" (00_scope.md R7), and the
program of an `initialize`. Safe. Log entries 3, 4 and 5. -/
opaque Config.freeHostOp : Nat → HostOp

end Sys2Proof
end

