-- ==== Sys2Proof/Machine/State.lean ====
section
/-! DEFINITION. The whole state of the core (10_state.md), the host's pending operations, the reset
state and the reasons a step could stop. -/

namespace Sys2Proof.Machine

/-- The seven error kinds (60_exceptions.md R220). -/
inductive ErrorKind where
  | unknownOpcode
  | programTooLarge
  | stackOverflow
  | stackUnderflow
  | memoryOutOfRange
  | misalignedFetch
  | keyIndexOutOfRange
  deriving DecidableEq, Repr

/-- The record of a fatal error (10_state.md R36, 60_exceptions.md R221). -/
structure ErrorRecord where
  /-- which of the seven kinds -/
  kind : ErrorKind
  /-- PC of the operation that failed, 0x200 for programTooLarge -/
  pc : Word
  /-- the fetched opcode, absent when the fetch itself failed and for programTooLarge -/
  opcode : Option Word
  /-- the lowest offending address, for memoryOutOfRange only -/
  addr : Option Word
  deriving DecidableEq, Repr

/-- The run status (10_state.md R34). -/
inductive Status where
  | running
  /-- waiting for a key for register `x`; `latch` is the key state of the previous step (R35) -/
  | awaitingKey (x : Reg) (latch : Keys)
  /-- stopped by the recorded error (R36) -/
  | halted (e : ErrorRecord)
  deriving DecidableEq, Repr

/-- Memory: (address, byte) pairs, strictly rising, none equal to what an unlisted address reads as
(`Memory.background`, Machine/Ops.lean). -/
abbrev Memory := List Host.Cell

/-- The 64×32 display buffer: `disp[x][y]` is column x, row y (10_state.md R30). -/
abbrev Display := Vector (Vector Bool 32) 64

/-- Every cell 0. -/
abbrev Display.blank : Display := Vector.replicate 64 (Vector.replicate 32 false)

/-- The state of the core (10_state.md), and the inputs that the spec passes to an operation as
arguments (R38), held as plain data. -/
structure State where
  /-- the 4096-byte memory (R37) -/
  mem : Memory
  /-- V0..VF (R20) -/
  v : Vector Byte 16
  /-- the index register I (R25) -/
  i : Word
  /-- the program counter (R22) -/
  pc : Word
  /-- the number of occupied stack slots, 0..16 (R26) -/
  sp : Fin 17
  /-- the sixteen return-address slots (R27) -/
  stack : Vector Word 16
  /-- the delay timer (R28) -/
  dt : Byte
  /-- the sound timer (R29) -/
  st : Byte
  /-- the display buffer (R30) -/
  disp : Display
  /-- the run status (R34) -/
  status : Status
  /-- `keys`, the key input of the step under way (R33). Log entry 4. -/
  keys : Keys
  /-- `rnd`, the random byte of the step under way (40_step_cycle.md R90). Log entry 3. -/
  rnd : Byte
  /-- the operations the host will make next, oldest first; free ones follow. Log entry 5. -/
  host : List HostOp
  /-- how many operations have been drawn from `Config.freeHostOp`. Log entry 5. -/
  opsDrawn : Nat
  deriving DecidableEq, Repr

/-- The state after `initialize` with no program bytes (10_state.md R39, 70_reset_and_hazards.md R240,
R242). Memory lists nothing: FONT and the zeros are what unlisted addresses read as. The last four
fields are the model's own (log entry 6). -/
def State.reset : State where
  mem := []
  v := Vector.replicate 16 0
  i := 0
  pc := 0x200
  sp := 0
  stack := Vector.replicate 16 0
  dt := 0
  st := 0
  disp := Display.blank
  status := .running
  keys := Vector.replicate 16 false
  rnd := 0
  host := []
  opsDrawn := 0

/-- The reasons a step stops with a fault: none. Each of the spec's seven errors leaves a state the
spec describes in full (60_exceptions.md R222), so the step takes it as a next state whose status is
`halted`. Log entry 7. -/
inductive Fault where
  deriving DecidableEq, Repr

/-- The reasons a step is refused. -/
inductive Refusal where
  /-- raised by an arm of `exec` whose instruction has no meaning yet; no arm does. Safe. -/
  | notModelled (mnemonic : String)
  deriving DecidableEq, Repr

/-- What a step answers. -/
abbrev Result := Host.Outcome State Fault Refusal

end Sys2Proof.Machine
end

