-- ==== Sys2Proof/Machine/Operands.lean ====
section
/-! DEFINITION. The operand forms: general registers, the index register's effective address, the
register block V0..Vx, keys. -/

namespace Sys2Proof.Machine

/-- `V[r]` (10_state.md R20). -/
def State.getV (s : State) (r : Reg) : Byte := s.v[r.val]

/-- `V[r] <- b`. No register is hardwired (10_state.md R20). -/
def State.setV (s : State) (r : Reg) (b : Byte) : State := { s with v := s.v.set r.val b r.isLt }

/-- `I <- w` (10_state.md R25). -/
def State.setI (s : State) (w : Word) : State := { s with i := w }

/-- The effective address `I + k`, an unbounded natural (43_index_memory.md R161, 20_memory.md R58). -/
def State.effAddr (s : State) (k : Nat) : Nat := s.i.toNat + k

/-- The block V0..Vx, x + 1 registers in order (43_index_memory.md R165). -/
def State.regBlock (s : State) (x : Reg) : List Byte := s.v.toList.take (x.val + 1)

/-- `V[k] <- f k` for every k in 0..x; registers above x keep their values (43_index_memory.md R167). -/
def State.setRegBlock (s : State) (x : Reg) (f : Nat → Byte) : State :=
  { s with v := Vector.ofFn fun k : Fin 16 => if k.val ≤ x.val then f k.val else s.v[k.val] }

/-- The decimal digits of a byte: hundreds, tens, ones (43_index_memory.md R164). -/
def decimalDigits (b : Byte) : List Byte :=
  [BitVec.ofNat 8 (b.toNat / 100), BitVec.ofNat 8 (b.toNat / 10 % 10), BitVec.ofNat 8 (b.toNat % 10)]

/-- `keys[k]` for the key numbered by a register's value, or none above 0xF (45_keys_timers.md R206). -/
def State.keyState (s : State) (k : Byte) : Option Bool :=
  if h : k.toNat < 16 then some (s.keys[k.toNat]'h) else none

end Sys2Proof.Machine
end

