-- ==== Sys2Proof/Machine/Ops.lean ====
section
/-! DEFINITION. The shared operations: memory, the program counter, the stack, and raising an error. -/

namespace Sys2Proof.Machine

/-! ### Memory (20_memory.md) -/

/-- What an address reads as after `initialize` and before any write: FONT in 0x000..0x04F, else 0
(10_state.md R39). Addresses above 0xFFF do not exist, and no operation reads one: every access is
range-checked first (20_memory.md R56). Log entries 1 and 8. -/
def Memory.background (a : Nat) : Byte :=
  if h : a < Config.fontSize then Config.font ⟨a, h⟩ else 0

/-- The spec's default for FONT, glyphs 0 to F in address order (92_eei_decisions.md D26). The machine does
not use it: FONT is `Config.font`, whatever that is. Log entry 1. -/
def defaultFont : List Byte :=
  [0xF0, 0x90, 0x90, 0x90, 0xF0, 0x20, 0x60, 0x20, 0x20, 0x70] ++
  [0xF0, 0x10, 0xF0, 0x80, 0xF0, 0xF0, 0x10, 0xF0, 0x10, 0xF0] ++
  [0x90, 0x90, 0xF0, 0x10, 0x10, 0xF0, 0x80, 0xF0, 0x10, 0xF0] ++
  [0xF0, 0x80, 0xF0, 0x90, 0xF0, 0xF0, 0x10, 0x20, 0x40, 0x40] ++
  [0xF0, 0x90, 0xF0, 0x90, 0xF0, 0xF0, 0x90, 0xF0, 0x10, 0xF0] ++
  [0xF0, 0x90, 0xF0, 0x90, 0x90, 0xE0, 0x90, 0xE0, 0x90, 0xE0] ++
  [0xF0, 0x80, 0x80, 0x80, 0xF0, 0xE0, 0x90, 0x90, 0x90, 0xE0] ++
  [0xF0, 0x80, 0xF0, 0x80, 0xF0, 0xF0, 0x80, 0xF0, 0x80, 0x80]

/-- FONT is its default: what a claim assumes that names the default bytes (92_eei_decisions.md D26). -/
def FontIsDefault : Prop := ∀ k : Fin Config.fontSize, defaultFont[k.val]? = some (Config.font k)

/-- `MemRead(a, 1)` (20_memory.md R58). -/
def Memory.read : Memory → Nat → Byte
  | [], a => Memory.background a
  | c :: m, a => if c.1 = a then c.2 else Memory.read m a

/-- Put a pair in its place by address. -/
def Memory.insert (a : Nat) (b : Byte) : Memory → Memory
  | [] => [(a, b)]
  | c :: m => if a < c.1 then (a, b) :: c :: m else c :: Memory.insert a b m

/-- `MemWrite(a, 1, b)` (20_memory.md R58). A byte equal to what an unlisted address reads as is not
listed. -/
def Memory.write (m : Memory) (a : Nat) (b : Byte) : Memory :=
  if b = Memory.background a then m.filter (fun c => c.1 ≠ a)
  else Memory.insert a b (m.filter (fun c => c.1 ≠ a))

/-- Byte writes at ascending addresses (20_memory.md R54). -/
def Memory.writeBytes : Memory → Nat → List Byte → Memory
  | m, _, [] => m
  | m, a, b :: bs => Memory.writeBytes (m.write a b) (a + 1) bs

/-- `MemRead(a, 2)`, big-endian (20_memory.md R53, R58). -/
def Memory.readWord (m : Memory) (a : Nat) : Word := joinBytes (m.read a) (m.read (a + 1))

/-- The canonical form: addresses strictly rising, all inside the address space, and no entry equal to
what an unlisted address reads as. -/
abbrev Memory.wf (m : Memory) : Prop :=
  m.Pairwise (fun c d => c.1 < d.1) ∧
    ∀ c ∈ m, c.1 ≤ Config.lastAddr ∧ c.2 ≠ Memory.background c.1

/-- `checkRange(a, n)` of 20_memory.md R58, for n ≥ 1: none when all n bytes exist, else the lowest
offending address. -/
def checkRange (a n : Nat) : Option Word :=
  if a + n - 1 ≤ Config.lastAddr then none else some (BitVec.ofNat 16 (max a 0x1000))

/-- Replace the memory. -/
def State.setMem (s : State) (m : Memory) : State := { s with mem := m }

/-! ### Errors (60_exceptions.md) -/

/-- Replace the run status. -/
def State.setStatus (s : State) (u : Status) : State := { s with status := u }

/-- `raise E(info)`: every effect is discarded but `status <- Halted(record)` (00_scope.md R10,
60_exceptions.md R222). The operation's answer to the host, Error(record), is the record the status
now holds (`State.result`). -/
def State.raise (s : State) (k : ErrorKind) (opcode addr : Option Word) : State :=
  s.setStatus (.halted { kind := k, pc := s.pc, opcode := opcode, addr := addr })

/-- Check a data access of n bytes at a, and go on or raise MemoryOutOfRange for the instruction
`instr` (20_memory.md R56). Log entry 10 says why the recorded opcode is `encode instr`. -/
def withRange (instr : Instr) (a n : Nat) (s : State) (goOn : State) : Result :=
  match checkRange a n with
  | none => .next goOn
  | some bad => .next (s.raise .memoryOutOfRange (some (encode instr)) (some bad))

/-! ### The program counter (40_step_cycle.md R96, 41_control_flow.md R110) -/

/-- `PC <- target`. -/
def State.setPc (s : State) (target : Word) : State := { s with pc := target }

/-- `PC <- PC + 2`. -/
def State.advance (s : State) : State := s.setPc (s.pc + 2)

/-- `skip_if(c)`: PC + 4 when c holds, PC + 2 when it does not. -/
def State.skipIf (s : State) (c : Bool) : State := s.setPc (if c then s.pc + 4 else s.pc + 2)

/-! ### The return stack (10_state.md R26, R27) -/

/-- `SP <- n` (10_state.md R26). -/
def State.setSp (s : State) (n : Fin 17) : State := { s with sp := n }

/-- `stack[j] <- w` (10_state.md R27). -/
def State.setSlot (s : State) (j : Fin 16) (w : Word) : State :=
  { s with stack := s.stack.set j.val w j.isLt }

/-- `stack[SP] <- w; SP <- SP + 1`, or none when SP = 16. -/
def State.push (s : State) (w : Word) : Option State :=
  if h : s.sp.val < 16 then
    some ((s.setSlot ⟨s.sp.val, h⟩ w).setSp ⟨s.sp.val + 1, Nat.succ_lt_succ h⟩)
  else none

/-- `SP <- SP - 1`, with the value of `stack[SP]` after it, or none when SP = 0. The slot is not
cleared. -/
def State.pop (s : State) : Option (Word × State) :=
  if h : 0 < s.sp.val then
    some (s.stack[s.sp.val - 1]'(by omega), s.setSp ⟨s.sp.val - 1, by omega⟩)
  else none

/-! ### Timers -/

/-- `DT <- b` (10_state.md R28). -/
def State.setDt (s : State) (b : Byte) : State := { s with dt := b }

/-- `ST <- b` (10_state.md R29). -/
def State.setSt (s : State) (b : Byte) : State := { s with st := b }

/-! ### Inputs -/

/-- The key input and the random byte of a step (40_step_cycle.md R90). -/
def State.setInputs (s : State) (keys : Keys) (rnd : Byte) : State := { s with keys := keys, rnd := rnd }

end Sys2Proof.Machine
end

