-- ==== Sys2Proof/Machine/Alu.lean ====
section
/-! DEFINITION. Register loads and arithmetic (42_alu.md). Operands are read from the state before the
instruction (R130). -/

namespace Sys2Proof.Machine

/-- `V[x] <- result; V[15] <- flag; advance`: the flag is written last, so with x = F it is what VF
holds (R131). -/
def State.writeWithFlag (s : State) (x : Reg) (result flag : Byte) : State :=
  ((s.setV x result).setV vf flag).advance

/-- `V[x] <- result; advance`. -/
def State.writeReg (s : State) (x : Reg) (result : Byte) : State := (s.setV x result).advance

/-- 6XKK (LD Vx, kk), R132. -/
def execLdImm (x : Reg) (kk : Byte) (s : State) : Result := .next (s.writeReg x kk)

/-- 7XKK (ADD Vx, kk), R133: "wrapping add, no flag". -/
def execAddImm (x : Reg) (kk : Byte) (s : State) : Result := .next (s.writeReg x (s.getV x + kk))

/-- 8XY0 (LD Vx, Vy), R134. -/
def execLdReg (x y : Reg) (s : State) : Result := .next (s.writeReg x (s.getV y))

/-- 8XY1 (OR Vx, Vy), R135. -/
def execOrReg (x y : Reg) (s : State) : Result := .next (s.writeReg x (s.getV x ||| s.getV y))

/-- 8XY2 (AND Vx, Vy), R136. -/
def execAndReg (x y : Reg) (s : State) : Result := .next (s.writeReg x (s.getV x &&& s.getV y))

/-- 8XY3 (XOR Vx, Vy), R137. -/
def execXorReg (x y : Reg) (s : State) : Result := .next (s.writeReg x (s.getV x ^^^ s.getV y))

/-- 8XY4 (ADD Vx, Vy), R138: VF is the carry. -/
def execAddReg (x y : Reg) (s : State) : Result :=
  .next (s.writeWithFlag x (s.getV x + s.getV y) (carryFlag (s.getV x) (s.getV y)))

/-- 8XY5 (SUB Vx, Vy), R139: Vx − Vy; VF is 1 when Vx ≥ Vy. -/
def execSubReg (x y : Reg) (s : State) : Result :=
  .next (s.writeWithFlag x (s.getV x - s.getV y) (noBorrowFlag (s.getV x) (s.getV y)))

/-- 8XY6 (SHR Vx), R140: field y is ignored. -/
def execShr (x : Reg) (s : State) : Result :=
  .next (s.writeWithFlag x (s.getV x >>> 1) (shiftedOutRight (s.getV x)))

/-- 8XY7 (SUBN Vx, Vy), R141: Vy − Vx; VF is 1 when Vy ≥ Vx. -/
def execSubnReg (x y : Reg) (s : State) : Result :=
  .next (s.writeWithFlag x (s.getV y - s.getV x) (noBorrowFlag (s.getV y) (s.getV x)))

/-- 8XYE (SHL Vx), R142: field y is ignored. -/
def execShl (x : Reg) (s : State) : Result :=
  .next (s.writeWithFlag x (s.getV x <<< 1) (shiftedOutLeft (s.getV x)))

/-- CXKK (RND Vx, kk), R143: `V[x] <- rnd & kk`, `rnd` being the step's random byte. -/
def execRnd (x : Reg) (kk : Byte) (s : State) : Result := .next (s.writeReg x (s.rnd &&& kk))

end Sys2Proof.Machine
end

