-- ==== Sys2Proof/Machine/Control.lean ====
section
/-! DEFINITION. Control transfer and skips (41_control_flow.md). -/

namespace Sys2Proof.Machine

/-- 1NNN (JP nnn), R111: `PC <- zext_16(nnn)`, with no advance. -/
def execJp (nnn : BitVec 12) (s : State) : Result := .next (s.setPc (zext16 nnn))

/-- 2NNN (CALL nnn), R112: push PC + 2 and jump; StackOverflow when SP = 16. -/
def execCall (nnn : BitVec 12) (s : State) : Result :=
  match s.push (s.pc + 2) with
  | some pushed => .next (pushed.setPc (zext16 nnn))
  | none => .next (s.raise .stackOverflow (some (encode (.call nnn))) none)

/-- 00EE (RET), R113: pop into PC, with no advance; StackUnderflow when SP = 0. -/
def execRet (s : State) : Result :=
  match s.pop with
  | some (target, popped) => .next (popped.setPc target)
  | none => .next (s.raise .stackUnderflow (some (encode .ret)) none)

/-- 3XKK (SE Vx, kk), R114. -/
def execSeImm (x : Reg) (kk : Byte) (s : State) : Result := .next (s.skipIf (s.getV x == kk))

/-- 4XKK (SNE Vx, kk), R115. -/
def execSneImm (x : Reg) (kk : Byte) (s : State) : Result := .next (s.skipIf (s.getV x != kk))

/-- 5XY0 (SE Vx, Vy), R116. -/
def execSeReg (x y : Reg) (s : State) : Result := .next (s.skipIf (s.getV x == s.getV y))

/-- 9XY0 (SNE Vx, Vy), R118. -/
def execSneReg (x y : Reg) (s : State) : Result := .next (s.skipIf (s.getV x != s.getV y))

/-- BNNN (JP V0, nnn), R117: `PC <- zext_16(V[0]) + zext_16(nnn)`, with no advance. -/
def execJpV0 (nnn : BitVec 12) (s : State) : Result :=
  .next (s.setPc (zext16 (s.getV 0) + zext16 nnn))

end Sys2Proof.Machine
end

