-- ==== Sys2Proof/Machine/Display.lean ====
section
/-! DEFINITION. The display buffer and its two instructions (44_display.md). -/

namespace Sys2Proof.Machine

/-- A cell of the grid: column 0..63, row 0..31. -/
abbrev Pixel := Fin 64 × Fin 32

/-- `disp[x][y]` (10_state.md R30). -/
def Display.get (d : Display) (p : Pixel) : Bool := d[p.1.val][p.2.val]

/-- `disp[x][y] <- disp[x][y] ^ 1`. -/
def Display.flip (d : Display) (p : Pixel) : Display :=
  Vector.set d p.1.val (Vector.set d[p.1.val] p.2.val (!d.get p) p.2.isLt) p.1.isLt

/-- Replace the display buffer. -/
def State.setDisp (s : State) (d : Display) : State := { s with disp := d }

/-- The cell where column c, row r of a sprite at (cx, cy) lands, if any (44_display.md R184). -/
def place (mode : EdgeMode) (cx cy c r : Nat) : Option Pixel :=
  match mode with
  | .wrap => some (⟨(cx + c) % 64, Nat.mod_lt _ (by decide)⟩, ⟨(cy + r) % 32, Nat.mod_lt _ (by decide)⟩)
  | .clip =>
    if h : cx + c < 64 ∧ cy + r < 32 then some (⟨cx + c, h.1⟩, ⟨cy + r, h.2⟩) else none
  | .wrapStartClip =>
    if h : cx % 64 + c < 64 ∧ cy % 32 + r < 32 then
      some (⟨cx % 64 + c, h.1⟩, ⟨cy % 32 + r, h.2⟩)
    else none

/-- The cells row r of a sprite toggles: bit 7 of its byte is column 0 (44_display.md R181). -/
def rowPixels (mode : EdgeMode) (cx cy r : Nat) (row : Byte) : List Pixel :=
  (List.range 8).filterMap fun c => if row.getLsbD (7 - c) then place mode cx cy c r else none

/-- The cells an n-row sprite read from `base` toggles, row by row and column by column
(44_display.md R182). -/
def spritePixels (mode : EdgeMode) (m : Memory) (base cx cy n : Nat) : List Pixel :=
  (List.range n).flatMap fun r => rowPixels mode cx cy r (m.read (base + r))

/-- Toggle cells in order. The second result is "collide": some cell held 1 when it was toggled
(44_display.md R182). -/
def Display.xorPixels : Display → List Pixel → Display × Bool
  | d, [] => (d, false)
  | d, p :: ps => (((d.flip p).xorPixels ps).1, d.get p || ((d.flip p).xorPixels ps).2)

/-- 00E0 (CLS): every cell 0 (44_display.md R180). -/
def execCls (s : State) : Result := .next (s.setDisp Display.blank).advance

/-- DXYN on known coordinates: draw, set VF, advance (44_display.md R182). -/
def State.drawSprite (s : State) (mode : EdgeMode) (cx cy : Byte) (n : Nat) : State :=
  let drawn := s.disp.xorPixels (spritePixels mode s.mem (s.effAddr 0) cx.toNat cy.toNat n)
  ((s.setDisp drawn.1).setV vf (collisionFlag drawn.2)).advance

/-- DXYN (DRW Vx, Vy, n): XOR a sprite onto the display and report a collision in VF. With n = 0
nothing is read, so nothing is range-checked (44_display.md R182, R186). -/
def execDrw (x y : Reg) (n : Nat) (s : State) : Result :=
  if n = 0 then .next (s.drawSprite Config.edgeMode (s.getV x) (s.getV y) 0)
  else withRange (.drw x y n) (s.effAddr 0) n s
    (s.drawSprite Config.edgeMode (s.getV x) (s.getV y) n)

end Sys2Proof.Machine
end

