-- ==== Sys2Proof/Machine/Index.lean ====
section
/-! DEFINITION. The index register and memory transfers (43_index_memory.md). -/

namespace Sys2Proof.Machine

/-- ANNN (LD I, nnn), R160. -/
def execLdI (nnn : BitVec 12) (s : State) : Result := .next (s.setI (zext16 nnn)).advance

/-- FX1E (ADD I, Vx), R162: modulo 2^16, VF unchanged. -/
def execAddI (x : Reg) (s : State) : Result := .next (s.setI (s.i + zext16 (s.getV x))).advance

/-- FX29 (LD F, Vx), R163: I <- Vx * 5, unmasked. -/
def execLdF (x : Reg) (s : State) : Result := .next (s.setI (zext16 (s.getV x) * 5)).advance

/-- FX33 (LD B, Vx), R164: the decimal digits at I, I+1, I+2. -/
def execLdB (x : Reg) (s : State) : Result :=
  withRange (.ldB x) (s.effAddr 0) 3 s
    (s.setMem (s.mem.writeBytes (s.effAddr 0) (decimalDigits (s.getV x)))).advance

/-- FX55 (LD [I], Vx), R166: V0..Vx to I..I+x. -/
def execLdStore (x : Reg) (s : State) : Result :=
  withRange (.ldStore x) (s.effAddr 0) (x.val + 1) s
    (s.setMem (s.mem.writeBytes (s.effAddr 0) (s.regBlock x))).advance

/-- FX65 (LD Vx, [I]), R167: I..I+x to V0..Vx. -/
def execLdLoad (x : Reg) (s : State) : Result :=
  withRange (.ldLoad x) (s.effAddr 0) (x.val + 1) s
    (s.setRegBlock x (fun k => s.mem.read (s.effAddr k))).advance

end Sys2Proof.Machine
end

