-- ==== Sys2Proof/Machine/KeysTimers.lean ====
section
/-! DEFINITION. Key and timer instructions (45_keys_timers.md), and the key-wait service
(40_step_cycle.md R91). -/

namespace Sys2Proof.Machine

/-- EX9E (SKP Vx), R200; KeyIndexOutOfRange when Vx > 0xF (R206). -/
def execSkp (x : Reg) (s : State) : Result :=
  match s.keyState (s.getV x) with
  | some pressed => .next (s.skipIf pressed)
  | none => .next (s.raise .keyIndexOutOfRange (some (encode (.skp x))) none)

/-- EXA1 (SKNP Vx), R201; KeyIndexOutOfRange when Vx > 0xF (R206). -/
def execSknp (x : Reg) (s : State) : Result :=
  match s.keyState (s.getV x) with
  | some pressed => .next (s.skipIf (!pressed))
  | none => .next (s.raise .keyIndexOutOfRange (some (encode (.sknp x))) none)

/-- FX07 (LD Vx, DT), R202. -/
def execLdVxDT (x : Reg) (s : State) : Result := .next (s.setV x s.dt).advance

/-- FX0A (LD Vx, K), R203: the wait begins, with the key state of this step latched, and PC is already
past the instruction. -/
def execLdVxK (x : Reg) (s : State) : Result := .next (s.setStatus (.awaitingKey x s.keys)).advance

/-- FX15 (LD DT, Vx), R204. -/
def execLdDTVx (x : Reg) (s : State) : Result := .next (s.setDt (s.getV x)).advance

/-- FX18 (LD ST, Vx), R205. -/
def execLdSTVx (x : Reg) (s : State) : Result := .next (s.setSt (s.getV x)).advance

/-- `min new`: the lowest key that is pressed now and was not at the previous step
(40_step_cycle.md R91). -/
def lowestNewKey (keys latch : Keys) : Option Reg :=
  (List.finRange 16).find? fun k => keys[k.val] && !latch[k.val]

/-- The key-wait service (40_step_cycle.md R91). Nothing is fetched and PC stays. -/
def State.serviceKeyWait (s : State) (x : Reg) (latch : Keys) : State :=
  match lowestNewKey s.keys latch with
  | none => s.setStatus (.awaitingKey x s.keys)
  | some k => (s.setV x (BitVec.ofNat 8 k.val)).setStatus .running

end Sys2Proof.Machine
end

