-- ==== Sys2Proof/Machine/Fetch.lean ====
section
/-! DEFINITION. Instruction fetch (40_step_cycle.md R93). -/

namespace Sys2Proof.Machine

/-- The two checks, alignment first, then the read. An error carries its kind and address (R93, R224).
Fetch changes no state. -/
def State.fetch (s : State) : Except (ErrorKind × Option Word) Word :=
  if s.pc.toNat % 2 = 1 then .error (.misalignedFetch, none)
  else if s.pc.toNat + 1 > Config.lastAddr then
    .error (.memoryOutOfRange, some (BitVec.ofNat 16 (max s.pc.toNat 0x1000)))
  else .ok (s.mem.readWord s.pc.toNat)

/-- Where `withFetchWord` places an instruction: at PC when an instruction can be fetched there, else at
the load address. Log entry 9. -/
def State.fetchAddr (s : State) : Word :=
  if s.pc.toNat % 2 = 1 ∨ s.pc.toNat + 1 > Config.lastAddr then BitVec.ofNat 16 Config.loadAddr else s.pc

end Sys2Proof.Machine
end

