-- ==== Sys2Proof/Machine/HostOps.lean ====
section
/-! DEFINITION. The host's side: its next operation, `tickTimers`, `initialize`, and what it may read
(60_exceptions.md R230, R234; 70_reset_and_hazards.md R240, R241). -/

namespace Sys2Proof.Machine

/-- The operation the host makes next, and the state once it has been taken up. After the listed
operations each further one is free: any of the three (60_exceptions.md R231, 70_reset_and_hazards.md
R245). Log entry 5. -/
def State.nextHostOp (s : State) : HostOp × State :=
  match s.host with
  | op :: later => (op, { s with host := later })
  | [] => (Config.freeHostOp s.opsDrawn, { s with opsDrawn := s.opsDrawn + 1 })

/-- "decrement[s] both timers, floored at 0", in every status (60_exceptions.md R230). -/
def State.tickTimers (s : State) : State :=
  (s.setDt (if s.dt = 0 then 0 else s.dt - 1)).setSt (if s.st = 0 then 0 else s.st - 1)

/-- The reset state with the host's side (the key input, the random byte, the pending operations and
the counter) carried over from `s`: none of it is core state (10_state.md R39). Log entry 11. -/
def State.resetCore (s : State) : State :=
  { State.reset with keys := s.keys, rnd := s.rnd, host := s.host, opsDrawn := s.opsDrawn }

/-- `initialize(program)` (70_reset_and_hazards.md R240); an image that does not fit leaves the core
halted with nothing copied (R241). -/
def State.initProgram (s : State) (program : List Byte) : State :=
  if program.length ≤ Config.maxProgram then
    s.resetCore.setMem (Memory.writeBytes [] Config.loadAddr program)
  else
    s.resetCore.raise .programTooLarge none none

/-- What the last operation returned to the host: Error(record) while halted, else Ok
(40_step_cycle.md R90, R92; 70_reset_and_hazards.md R241). Log entry 7. -/
def State.result (s : State) : Except ErrorRecord Unit :=
  match s.status with
  | .halted e => .error e
  | .running => .ok ()
  | .awaitingKey _ _ => .ok ()

/-- The code column of 60_exceptions.md R220: the spec's own numbers. -/
def ErrorKind.code : ErrorKind → Nat
  | .unknownOpcode => 1
  | .programTooLarge => 2
  | .stackOverflow => 3
  | .stackUnderflow => 4
  | .memoryOutOfRange => 5
  | .misalignedFetch => 6
  | .keyIndexOutOfRange => 7

/-- The code a packed view of the status holds: "Code 0 is reserved for "no error"" (60_exceptions.md
R220). -/
def Status.code : Status → Nat
  | .halted e => e.kind.code
  | .running => 0
  | .awaitingKey _ _ => 0

/-- What the host may read between operations (60_exceptions.md R234). -/
structure HostView where
  disp : Display
  st : Byte
  dt : Byte
  status : Status
  deriving DecidableEq, Repr

/-- The host's view of a state (60_exceptions.md R234, 10_state.md R32). -/
def State.view (s : State) : HostView := { disp := s.disp, st := s.st, dt := s.dt, status := s.status }

end Sys2Proof.Machine
end

