-- ==== Sys2Proof/Machine/Step.lean ====
section
/-! DEFINITION. One transition: the host's next operation, and for `step` the fetch, decode, execute
cycle (40_step_cycle.md R90, R99). -/

namespace Sys2Proof.Machine

/-- The Running path of a step (40_step_cycle.md R99). -/
def fetchDecodeExecute (s : State) : Result :=
  match s.fetch with
  | .error (kind, addr) => .next (s.raise kind none addr)
  | .ok op =>
    match decode op with
    | .ok i => exec i s
    | .error _ => .next (s.raise .unknownOpcode (some op) none)

/-- The host operation `step`, its inputs standing in `keys` and `rnd`: dispatch on the status
(40_step_cycle.md R90, R91, R92). -/
def coreStep (s : State) : Result :=
  match s.status with
  | .halted _ => .next s
  | .awaitingKey x latch => .next (s.serviceKeyWait x latch)
  | .running => fetchDecodeExecute s

/-- One transition of the machine: serve the host's next operation (60_exceptions.md R234). -/
def step (s : State) : Host.Outcome State Fault Refusal :=
  match s.nextHostOp with
  | (.step keys rnd, t) => coreStep (t.setInputs keys rnd)
  | (.tickTimers, t) => .next t.tickTimers
  | (.initProgram program, t) => .next (t.initProgram program)

/-- Place an instruction where the next step fetches: its two bytes big-endian at `fetchAddr`, the core
running, and the host's next operation a `step` whose inputs are the ones the state holds. Log entry 9. -/
def State.withFetchWord (s : State) (nbits w : Nat) : State :=
  { s with
    pc := s.fetchAddr
    mem := s.mem.writeBytes s.fetchAddr.toNat
      [BitVec.ofNat 8 (w % 2 ^ nbits / 256), BitVec.ofNat 8 (w % 2 ^ nbits)]
    status := .running
    host := .step s.keys s.rnd :: s.host }

end Sys2Proof.Machine
end

