-- ==== Sys2Proof/Safety.lean ====
section
/-! DEFINITION. What a safe run is, the invariants of the machine, and the vocabulary that statements
about an instruction are written in: the parts of the state, and what a step leaves unchanged. -/

namespace Sys2Proof.Machine

/-- No fatal error has stopped the instruction stream (60_exceptions.md R222, 70_reset_and_hazards.md
R245): a run is safe while every state of it is live. -/
def State.Live (s : State) : Prop := ∀ e, s.status ≠ .halted e

/-- The fields of an error record, kind by kind: the last column of the table in 60_exceptions.md R220,
with R221. -/
def ErrorRecord.Fits (e : ErrorRecord) : Prop :=
  match e.kind with
  | .unknownOpcode => (∃ op, e.opcode = some op ∧ decode op = .error (.unknownOpcode op)) ∧ e.addr = none
  | .programTooLarge => e.pc = 0x200 ∧ e.opcode = none ∧ e.addr = none
  | .stackOverflow => (∃ nnn, e.opcode = some (encode (.call nnn))) ∧ e.addr = none
  | .stackUnderflow => e.opcode = some (encode .ret) ∧ e.addr = none
  | .memoryOutOfRange => ∃ a, e.addr = some a ∧ 0x1000 ≤ a.toNat ∧ (e.opcode = none → a = e.pc)
  | .misalignedFetch => e.pc.toNat % 2 = 1 ∧ e.opcode = none ∧ e.addr = none
  | .keyIndexOutOfRange =>
    (∃ x, e.opcode = some (encode (.skp x)) ∨ e.opcode = some (encode (.sknp x))) ∧ e.addr = none

/-- Whatever record the status holds fits its kind. -/
def State.RecordFits (s : State) : Prop := ∀ e, s.status = .halted e → e.Fits

/-- PC is at most 0x10FE, the largest target BNNN can compute (10_state.md R24), and no stack slot holds
more than 0x1000, the return address of a call at 0xFFE (41_control_flow.md R112). -/
def State.PcBounded (s : State) : Prop :=
  s.pc.toNat ≤ 0x10FE ∧ ∀ j : Fin 16, s.stack[j.val].toNat ≤ 0x1000

/-- The memory is in its canonical form. -/
def State.MemCanonical (s : State) : Prop := s.mem.wf

/-! ### Frames -/

/-- One part of the state, as it is read: a register, a byte of memory, a display cell, … -/
inductive Part where
  | reg (r : Reg)
  | index
  | pc
  | sp
  | slot (j : Fin 16)
  | byte (a : Nat)
  | dt
  | st
  | cell (p : Pixel)
  | status
  | keys
  | rnd
  | host
  | opsDrawn
  deriving DecidableEq, Repr

/-- The part reads the same in both states. -/
def Unchanged (s t : State) : Part → Prop
  | .reg r => t.getV r = s.getV r
  | .index => t.i = s.i
  | .pc => t.pc = s.pc
  | .sp => t.sp = s.sp
  | .slot j => t.stack[j.val] = s.stack[j.val]
  | .byte a => t.mem.read a = s.mem.read a
  | .dt => t.dt = s.dt
  | .st => t.st = s.st
  | .cell p => t.disp.get p = s.disp.get p
  | .status => t.status = s.status
  | .keys => t.keys = s.keys
  | .rnd => t.rnd = s.rnd
  | .host => t.host = s.host
  | .opsDrawn => t.opsDrawn = s.opsDrawn

/-- From `s` to `t`, every part outside `written` is unchanged. -/
def ChangesOnly (written : Part → Prop) (s t : State) : Prop := ∀ p, ¬ written p → Unchanged s t p

/-- Executing `i` in `s` enters the error recorded by `e` and discards every other effect
(60_exceptions.md R222). -/
def Raises (i : Instr) (s : State) (e : ErrorRecord) : Prop :=
  ∃ t, exec i s = .next t ∧ t.status = .halted e ∧ ChangesOnly (· = .status) s t

/-! ### The host's operations -/

/-- The host's next operation is `op`, and `u` is `s` with it taken up: the first listed one, or a free one
when none is listed (log entry 5). -/
def TakesUp (s : State) (op : HostOp) (u : State) : Prop :=
  (∃ later, s.host = op :: later ∧ u = { s with host := later }) ∨
  (s.host = [] ∧ Config.freeHostOp s.opsDrawn = op ∧ u = { s with opsDrawn := s.opsDrawn + 1 })

/-- The host's next operation is `step`, and `u` is `s` with it taken up and its inputs in `keys` and `rnd`
(log entries 3 and 4). -/
def TakesStep (s u : State) : Prop :=
  ∃ ks b w, TakesUp s (.step ks b) w ∧ u = { w with keys := ks, rnd := b }

/-- The illegal opcodes, as 30_encoding.md R78 lists them. -/
def IllegalOpcode (op : Word) : Prop :=
  (op.toNat ≤ 0x0FFF ∧ op.toNat ≠ 0x00E0 ∧ op.toNat ≠ 0x00EE) ∨
  (op.toNat / 4096 = 0x5 ∧ op.toNat % 16 ≠ 0) ∨
  (op.toNat / 4096 = 0x8 ∧ op.toNat % 16 ∈ [0x8, 0x9, 0xA, 0xB, 0xC, 0xD, 0xF]) ∨
  (op.toNat / 4096 = 0x9 ∧ op.toNat % 16 ≠ 0) ∨
  (op.toNat / 4096 = 0xE ∧ op.toNat % 256 ∉ [0x9E, 0xA1]) ∨
  (op.toNat / 4096 = 0xF ∧
    op.toNat % 256 ∉ [0x07, 0x0A, 0x15, 0x18, 0x1E, 0x29, 0x33, 0x55, 0x65])

/-- Column c of row r of the sprite at I, drawn at (cx, cy) by the configured EDGE_MODE, is a 1 bit that
lands on cell q (44_display.md R181, R184). -/
def SpriteBitLandsOn (s : State) (cx cy : Byte) (r c : Nat) (q : Pixel) : Prop :=
  (s.mem.read (s.effAddr r)).getLsbD (7 - c) = true ∧
    place Config.edgeMode cx.toNat cy.toNat c r = some q

end Sys2Proof.Machine
end

