-- ==== Sys2Proof/Certificates/Slice0/Obligations.lean ====
section
/-! DEFINITION. The statements for the provers, each read from the numbered rules of spec/. -/

open Sys2Proof Sys2Proof.Machine

/-! ### Encoding -/

/-- 30_encoding.md R71..R76, R80: no bit of an encoding is dropped. -/
def Obligations.DecodeOfEncodeGivesTheInstructionBack : Prop :=
  ∀ i : Instr, WellFormed i = true → decode (encode i) = .ok i

/-- 30_encoding.md R73, R74: what decodes is well formed, and it encodes back to the same word, but for
the ignored field y of 8XY6 and 8XYE, which encodes back as 0. -/
def Obligations.DecodedInstructionEncodesBack : Prop :=
  ∀ (op : Word) (i : Instr), decode op = .ok i →
    WellFormed i = true ∧
    ((∃ x, i = .shr x ∨ i = .shl x) → encode i = op &&& 0xFF0F#16) ∧
    ((¬ ∃ x, i = .shr x ∨ i = .shl x) → encode i = op)

/-- 30_encoding.md R78 and 40_step_cycle.md R94: the illegal opcodes are exactly the listed ones, and a
step that fetches one raises UnknownOpcode and changes nothing else. -/
def Obligations.IllegalOpcodesAreTheListedOnesAndHalt : Prop :=
  (∀ op : Word, IllegalOpcode op ↔ decode op = .error (.unknownOpcode op)) ∧
  (∀ op : Word, ¬ IllegalOpcode op ↔ ∃ i, decode op = .ok i) ∧
  (∀ s u : State, TakesStep s u → s.status = .running → s.pc.toNat % 2 = 0 → s.pc.toNat ≤ 0xFFE →
    IllegalOpcode (s.mem.readWord s.pc.toNat) →
    ∃ t, step s = .next t ∧
      t.status = .halted ⟨.unknownOpcode, s.pc, some (s.mem.readWord s.pc.toNat), none⟩ ∧
      ChangesOnly (· = .status) u t)

/-- A few words written out from the encoding lines of 30_encoding.md R80 and of the instructions' own
rules. -/
def Obligations.SampleOpcodesDecode : Prop :=
  decode 0b0000000011100000#16 = .ok .cls ∧
  decode 0b0010001100000000#16 = .ok (.call 0x300#12) ∧
  decode 0b0111000100010000#16 = .ok (.addImm 1 0x10#8) ∧
  decode 0b1000000100100100#16 = .ok (.addReg 1 2) ∧
  decode 0b1010001011110000#16 = .ok (.ldI 0x2F0#12) ∧
  decode 0b1101000000010101#16 = .ok (.drw 0 1 5) ∧
  decode 0b1110010110011110#16 = .ok (.skp 5) ∧
  decode 0b1111101000110011#16 = .ok (.ldB 0xA)

/-! ### The step -/

/-- 40_step_cycle.md R90, R95, R99: when the two bytes at an even PC of at most 0xFFE decode to an
instruction, a step is its execution in the state that holds the step's inputs. How those inputs come
to stand in the state is the model's own choice (log entries 3, 4 and 5). -/
def Obligations.StepRunsTheDecodedInstruction : Prop :=
  ∀ (s u : State) (i : Instr), TakesStep s u → s.status = .running →
    s.pc.toNat % 2 = 0 → s.pc.toNat ≤ 0xFFE →
    decode (joinBytes (s.mem.read s.pc.toNat) (s.mem.read (s.pc.toNat + 1))) = .ok i →
    step s = exec i u

/-- 40_step_cycle.md R93, 60_exceptions.md R224 (the spec's decisions D8, D9 and D23): an odd PC raises
MisalignedFetch, whatever its size, and an even PC above 0xFFE raises MemoryOutOfRange at PC. -/
def Obligations.FetchErrorsHalt : Prop :=
  ∀ s u : State, TakesStep s u → s.status = .running →
    (s.pc.toNat % 2 = 1 → ∃ t, step s = .next t ∧
      t.status = .halted ⟨.misalignedFetch, s.pc, none, none⟩ ∧ ChangesOnly (· = .status) u t) ∧
    (s.pc.toNat % 2 = 0 → 0x1000 ≤ s.pc.toNat → ∃ t, step s = .next t ∧
      t.status = .halted ⟨.memoryOutOfRange, s.pc, none, some s.pc⟩ ∧ ChangesOnly (· = .status) u t)

/-- 40_step_cycle.md R92, 60_exceptions.md R223 (the spec's decision D21): a step while halted changes
nothing, and its answer to the host is the same error again. -/
def Obligations.StepWhileHaltedChangesNothing : Prop :=
  ∀ (s u : State) (e : ErrorRecord), TakesStep s u → s.status = .halted e →
    step s = .next u ∧ u.result = .error e

/-- 40_step_cycle.md R91 (the spec's decision D18): a key-wait service with no newly pressed key only
moves the latch, and otherwise the lowest newly pressed key goes to Vx and the core runs again. -/
def Obligations.KeyWaitServiceTakesTheLowestNewKey : Prop :=
  ∀ (s u : State) (x : Reg) (latch : Keys), TakesStep s u → s.status = .awaitingKey x latch →
    ((∀ k : Reg, ¬ (u.keys[k.val] = true ∧ latch[k.val] = false)) →
      ∃ t, step s = .next t ∧ t.status = .awaitingKey x u.keys ∧ ChangesOnly (· = .status) u t) ∧
    (∀ k : Reg, u.keys[k.val] = true → latch[k.val] = false →
      (∀ j : Reg, j < k → ¬ (u.keys[j.val] = true ∧ latch[j.val] = false)) →
      ∃ t, step s = .next t ∧ t.status = .running ∧ (t.getV x).toNat = k.val ∧
        ChangesOnly (fun p => p = .status ∨ p = .reg x) u t)

/-! ### The host's other operations -/

/-- 60_exceptions.md R230 (the spec's decision D20): a tick, listed or free, decrements both timers, floored
at 0, in every status, and changes nothing else. That the operation is taken up first is the model's form
(log entry 5). -/
def Obligations.TickDecrementsBothTimers : Prop :=
  ∀ s u : State, TakesUp s .tickTimers u →
    ∃ t, step s = .next t ∧ t.dt.toNat = s.dt.toNat - 1 ∧ t.st.toNat = s.st.toNat - 1 ∧
      ChangesOnly (fun p => p = .dt ∨ p = .st) u t

/-- 70_reset_and_hazards.md R240 (with the spec's decision D24 for the display): what `initialize` leaves,
for a program that fits. That the key input and the host's side stay is the model's reading (log entry
11). -/
def Obligations.InitializeLoadsTheProgram : Prop :=
  ∀ (s u : State) (program : List Byte), TakesUp s (.initProgram program) u → program.length ≤ 3584 →
    ∃ t, step s = .next t ∧
      (∀ (a : Nat) (h : a < 80), t.mem.read a = Config.font ⟨a, h⟩) ∧
      (∀ (k : Nat) (h : k < program.length), t.mem.read (0x200 + k) = program[k]) ∧
      (∀ a : Nat, 80 ≤ a → a < 0x200 ∨ 0x200 + program.length ≤ a → t.mem.read a = 0) ∧
      (∀ r, t.getV r = 0) ∧ t.i = 0 ∧ t.sp.val = 0 ∧ (∀ j : Fin 16, t.stack[j.val] = 0) ∧
      t.dt = 0 ∧ t.st = 0 ∧ t.pc = 0x200 ∧ (∀ p, t.disp.get p = false) ∧ t.status = .running ∧
      t.result = .ok () ∧
      t.host = u.host ∧ t.keys = u.keys ∧ t.rnd = u.rnd ∧ t.opsDrawn = u.opsDrawn

/-- 70_reset_and_hazards.md R241 (the spec's decision D25): a program that does not fit leaves the reset
state with nothing copied, halted by ProgramTooLarge. -/
def Obligations.OversizedProgramIsRefused : Prop :=
  ∀ (s u : State) (program : List Byte), TakesUp s (.initProgram program) u → 3584 < program.length →
    ∃ t, step s = .next t ∧ t.status = .halted ⟨.programTooLarge, 0x200, none, none⟩ ∧
      t.result = .error ⟨.programTooLarge, 0x200, none, none⟩ ∧
      ChangesOnly (fun p => p = .status ∨ p = .host ∨ p = .keys ∨ p = .rnd ∨ p = .opsDrawn)
        State.reset t

/-- 10_state.md R39 (with the spec's decision D24 for the display): the state after reset. The model's own
input fields are not named here. -/
def Obligations.ResetStateIsAsTheSpecSays : Prop :=
  (∀ (a : Nat) (h : a < 80), State.reset.mem.read a = Config.font ⟨a, h⟩) ∧
  (∀ a : Nat, 80 ≤ a → State.reset.mem.read a = 0) ∧
  (∀ r, State.reset.getV r = 0) ∧ State.reset.i = 0 ∧ State.reset.pc = 0x200 ∧
  State.reset.sp.val = 0 ∧ (∀ j : Fin 16, State.reset.stack[j.val] = 0) ∧
  State.reset.dt = 0 ∧ State.reset.st = 0 ∧ (∀ p, State.reset.disp.get p = false) ∧
  State.reset.status = .running

/-! ### Control transfer and skips -/

/-- 41_control_flow.md R111. -/
def Obligations.JumpSetsPcToItsTarget : Prop :=
  ∀ (nnn : BitVec 12) (s : State),
    decode (BitVec.ofNat 16 (0x1000 + nnn.toNat)) = .ok (.jp nnn) ∧
    ∃ t, exec (.jp nnn) s = .next t ∧ t.pc.toNat = nnn.toNat ∧ ChangesOnly (· = .pc) s t ∧
      (nnn.toNat % 2 = 1 → t.fetch = .error (.misalignedFetch, none)) ∧
      (nnn.toNat = s.pc.toNat → t = s)

/-- 41_control_flow.md R117 (the spec's decision D10: the sum is not reduced modulo 4096). -/
def Obligations.JumpWithOffsetAddsV0 : Prop :=
  ∀ (nnn : BitVec 12) (s : State),
    decode (BitVec.ofNat 16 (0xB000 + nnn.toNat)) = .ok (.jpV0 nnn) ∧
    ∃ t, exec (.jpV0 nnn) s = .next t ∧ t.pc.toNat = (s.getV 0).toNat + nnn.toNat ∧
      ChangesOnly (· = .pc) s t

/-- 41_control_flow.md R112 (the spec's decision D2: the return address is PC + 2). -/
def Obligations.CallPushesTheReturnAddress : Prop :=
  ∀ (nnn : BitVec 12) (s : State) (j : Fin 16), j.val = s.sp.val →
    decode (BitVec.ofNat 16 (0x2000 + nnn.toNat)) = .ok (.call nnn) ∧
    ∃ t, exec (.call nnn) s = .next t ∧ t.stack[j.val] = s.pc + 2 ∧ t.sp.val = s.sp.val + 1 ∧
      t.pc.toNat = nnn.toNat ∧ ChangesOnly (fun p => p = .pc ∨ p = .sp ∨ p = .slot j) s t

/-- 41_control_flow.md R112, 60_exceptions.md R222 (the spec's decision D21): a call with sixteen entries
on the stack. -/
def Obligations.CallOnAFullStackHalts : Prop :=
  ∀ (nnn : BitVec 12) (s : State), s.sp.val = 16 →
    Raises (.call nnn) s
      ⟨.stackOverflow, s.pc, some (BitVec.ofNat 16 (0x2000 + nnn.toNat)), none⟩

/-- 41_control_flow.md R113: the pop into PC, the fetch error a bad popped value causes (its kind is the
spec's decision D8 or D9), and StackUnderflow on an empty stack (the state and record of an error are the
spec's decisions D21 and D22). Log entry 13. -/
def Obligations.ReturnPopsPc : Prop :=
  decode 0x00EE#16 = .ok .ret ∧
  (∀ (s : State) (j : Fin 16), s.sp.val = j.val + 1 →
    ∃ t, exec .ret s = .next t ∧ t.pc = s.stack[j.val] ∧ t.sp.val = j.val ∧
      ChangesOnly (fun p => p = .pc ∨ p = .sp) s t ∧
      (s.stack[j.val].toNat % 2 = 1 → t.fetch = .error (.misalignedFetch, none)) ∧
      (s.stack[j.val].toNat % 2 = 0 → 0x1000 ≤ s.stack[j.val].toNat →
        t.fetch = .error (.memoryOutOfRange, some s.stack[j.val]))) ∧
  (∀ s : State, s.sp.val = 0 → Raises .ret s ⟨.stackUnderflow, s.pc, some 0x00EE#16, none⟩)

/-- 41_control_flow.md R114, R115, R116, R118 (the spec's decisions D3, PC after a skip, and D4, a low nibble
other than 0). Log entry 13. -/
def Obligations.RegisterSkipsCompare : Prop :=
  ∀ (x y : Reg) (kk : Byte) (s : State),
    (decode (BitVec.ofNat 16 (0x3000 + x.val * 256 + kk.toNat)) = .ok (.seImm x kk) ∧
      ∃ t, exec (.seImm x kk) s = .next t ∧ ChangesOnly (· = .pc) s t ∧
        t.pc = if s.getV x = kk then s.pc + 4 else s.pc + 2) ∧
    (decode (BitVec.ofNat 16 (0x4000 + x.val * 256 + kk.toNat)) = .ok (.sneImm x kk) ∧
      ∃ t, exec (.sneImm x kk) s = .next t ∧ ChangesOnly (· = .pc) s t ∧
        t.pc = if s.getV x ≠ kk then s.pc + 4 else s.pc + 2) ∧
    (decode (BitVec.ofNat 16 (0x5000 + x.val * 256 + y.val * 16)) = .ok (.seReg x y) ∧
      (∀ n : Nat, 0 < n → n < 16 → decode (BitVec.ofNat 16 (0x5000 + x.val * 256 + y.val * 16 + n)) =
        .error (.unknownOpcode (BitVec.ofNat 16 (0x5000 + x.val * 256 + y.val * 16 + n)))) ∧
      ∃ t, exec (.seReg x y) s = .next t ∧ ChangesOnly (· = .pc) s t ∧
        t.pc = if s.getV x = s.getV y then s.pc + 4 else s.pc + 2) ∧
    (decode (BitVec.ofNat 16 (0x9000 + x.val * 256 + y.val * 16)) = .ok (.sneReg x y) ∧
      (∀ n : Nat, 0 < n → n < 16 → decode (BitVec.ofNat 16 (0x9000 + x.val * 256 + y.val * 16 + n)) =
        .error (.unknownOpcode (BitVec.ofNat 16 (0x9000 + x.val * 256 + y.val * 16 + n)))) ∧
      ∃ t, exec (.sneReg x y) s = .next t ∧ ChangesOnly (· = .pc) s t ∧
        t.pc = if s.getV x ≠ s.getV y then s.pc + 4 else s.pc + 2)

/-! ### Loads and arithmetic -/

/-- 42_alu.md R132, R133, R134. -/
def Obligations.LoadsAndImmediateAddWriteTheirRegister : Prop :=
  ∀ (x y : Reg) (kk : Byte) (s : State),
    (decode (BitVec.ofNat 16 (0x6000 + x.val * 256 + kk.toNat)) = .ok (.ldImm x kk) ∧
      ∃ t, exec (.ldImm x kk) s = .next t ∧ t.getV x = kk ∧ t.pc = s.pc + 2 ∧
        ChangesOnly (fun p => p = .pc ∨ p = .reg x) s t) ∧
    (decode (BitVec.ofNat 16 (0x7000 + x.val * 256 + kk.toNat)) = .ok (.addImm x kk) ∧
      ∃ t, exec (.addImm x kk) s = .next t ∧
        (t.getV x).toNat = ((s.getV x).toNat + kk.toNat) % 256 ∧ t.pc = s.pc + 2 ∧
        ChangesOnly (fun p => p = .pc ∨ p = .reg x) s t) ∧
    (decode (BitVec.ofNat 16 (0x8000 + x.val * 256 + y.val * 16)) = .ok (.ldReg x y) ∧
      ∃ t, exec (.ldReg x y) s = .next t ∧ t.getV x = s.getV y ∧ t.pc = s.pc + 2 ∧
        ChangesOnly (fun p => p = .pc ∨ p = .reg x) s t)

/-- 42_alu.md R135, R136, R137 (the spec's decision D6: VF is written only as the destination). -/
def Obligations.BitwiseOperationsCombineEachBit : Prop :=
  ∀ (x y : Reg) (s : State),
    (decode (BitVec.ofNat 16 (0x8001 + x.val * 256 + y.val * 16)) = .ok (.orReg x y) ∧
      ∃ t, exec (.orReg x y) s = .next t ∧ t.pc = s.pc + 2 ∧
        (∀ k < 8, (t.getV x).getLsbD k = ((s.getV x).getLsbD k || (s.getV y).getLsbD k)) ∧
        ChangesOnly (fun p => p = .pc ∨ p = .reg x) s t) ∧
    (decode (BitVec.ofNat 16 (0x8002 + x.val * 256 + y.val * 16)) = .ok (.andReg x y) ∧
      ∃ t, exec (.andReg x y) s = .next t ∧ t.pc = s.pc + 2 ∧
        (∀ k < 8, (t.getV x).getLsbD k = ((s.getV x).getLsbD k && (s.getV y).getLsbD k)) ∧
        ChangesOnly (fun p => p = .pc ∨ p = .reg x) s t) ∧
    (decode (BitVec.ofNat 16 (0x8003 + x.val * 256 + y.val * 16)) = .ok (.xorReg x y) ∧
      ∃ t, exec (.xorReg x y) s = .next t ∧ t.pc = s.pc + 2 ∧
        (∀ k < 8, (t.getV x).getLsbD k = ((s.getV x).getLsbD k ^^ (s.getV y).getLsbD k)) ∧
        ChangesOnly (fun p => p = .pc ∨ p = .reg x) s t)

/-- 42_alu.md R138, R139, R141: the result modulo 256 in Vx, then the carry or no-borrow flag in VF, so
that with x = F it is the flag that VF holds. That operands are sampled first and the flag is written
last is the spec's decision D5. Log entry 13. -/
def Obligations.AddAndSubtractSetTheFlag : Prop :=
  ∀ (x y : Reg) (s : State),
    (decode (BitVec.ofNat 16 (0x8004 + x.val * 256 + y.val * 16)) = .ok (.addReg x y) ∧
      ∃ t, exec (.addReg x y) s = .next t ∧ t.pc = s.pc + 2 ∧
        (x ≠ vf → (t.getV x).toNat = ((s.getV x).toNat + (s.getV y).toNat) % 256) ∧
        t.getV vf = (if (s.getV x).toNat + (s.getV y).toNat > 255 then 1 else 0) ∧
        ChangesOnly (fun p => p = .pc ∨ p = .reg x ∨ p = .reg vf) s t) ∧
    (decode (BitVec.ofNat 16 (0x8005 + x.val * 256 + y.val * 16)) = .ok (.subReg x y) ∧
      ∃ t, exec (.subReg x y) s = .next t ∧ t.pc = s.pc + 2 ∧
        (x ≠ vf → ((t.getV x).toNat : Int) = ((s.getV x).toNat - (s.getV y).toNat : Int) % 256) ∧
        t.getV vf = (if (s.getV x).toNat ≥ (s.getV y).toNat then 1 else 0) ∧
        ChangesOnly (fun p => p = .pc ∨ p = .reg x ∨ p = .reg vf) s t) ∧
    (decode (BitVec.ofNat 16 (0x8007 + x.val * 256 + y.val * 16)) = .ok (.subnReg x y) ∧
      ∃ t, exec (.subnReg x y) s = .next t ∧ t.pc = s.pc + 2 ∧
        (x ≠ vf → ((t.getV x).toNat : Int) = ((s.getV y).toNat - (s.getV x).toNat : Int) % 256) ∧
        t.getV vf = (if (s.getV y).toNat ≥ (s.getV x).toNat then 1 else 0) ∧
        ChangesOnly (fun p => p = .pc ∨ p = .reg x ∨ p = .reg vf) s t)

/-- 42_alu.md R140, R142 (the spec's decisions D5 and D6: field y is ignored, the flag is written last). -/
def Obligations.ShiftsMoveOneBitIntoTheFlag : Prop :=
  ∀ (x y : Reg) (s : State),
    (decode (BitVec.ofNat 16 (0x8006 + x.val * 256 + y.val * 16)) = .ok (.shr x) ∧
      ∃ t, exec (.shr x) s = .next t ∧ t.pc = s.pc + 2 ∧
        (x ≠ vf → (t.getV x).toNat = (s.getV x).toNat / 2) ∧
        (t.getV vf).toNat = (s.getV x).toNat % 2 ∧
        ChangesOnly (fun p => p = .pc ∨ p = .reg x ∨ p = .reg vf) s t) ∧
    (decode (BitVec.ofNat 16 (0x800E + x.val * 256 + y.val * 16)) = .ok (.shl x) ∧
      ∃ t, exec (.shl x) s = .next t ∧ t.pc = s.pc + 2 ∧
        (x ≠ vf → (t.getV x).toNat = (s.getV x).toNat * 2 % 256) ∧
        (t.getV vf).toNat = (s.getV x).toNat / 128 ∧
        ChangesOnly (fun p => p = .pc ∨ p = .reg x ∨ p = .reg vf) s t)

/-- 42_alu.md R143 (the spec's decision D19): the step's random byte masked by kk, for every random
byte. -/
def Obligations.RandomByteIsMasked : Prop :=
  ∀ (x : Reg) (kk : Byte) (s : State),
    decode (BitVec.ofNat 16 (0xC000 + x.val * 256 + kk.toNat)) = .ok (.rnd x kk) ∧
    ∃ t, exec (.rnd x kk) s = .next t ∧ t.pc = s.pc + 2 ∧
      (∀ k < 8, (t.getV x).getLsbD k = (s.rnd.getLsbD k && kk.getLsbD k)) ∧
      ChangesOnly (fun p => p = .pc ∨ p = .reg x) s t

/-! ### The index register and memory transfers -/

/-- 43_index_memory.md R160. -/
def Obligations.LoadIndexSetsI : Prop :=
  ∀ (nnn : BitVec 12) (s : State),
    decode (BitVec.ofNat 16 (0xA000 + nnn.toNat)) = .ok (.ldI nnn) ∧
    ∃ t, exec (.ldI nnn) s = .next t ∧ t.i.toNat = nnn.toNat ∧ t.pc = s.pc + 2 ∧
      ChangesOnly (fun p => p = .pc ∨ p = .index) s t

/-- 43_index_memory.md R162, R163 (the spec's decisions D11 and D12): I + Vx modulo 2^16, and Vx * 5
unmasked. -/
def Obligations.IndexArithmetic : Prop :=
  ∀ (x : Reg) (s : State),
    (decode (BitVec.ofNat 16 (0xF01E + x.val * 256)) = .ok (.addI x) ∧
      ∃ t, exec (.addI x) s = .next t ∧ t.i.toNat = (s.i.toNat + (s.getV x).toNat) % 65536 ∧
        t.pc = s.pc + 2 ∧ ChangesOnly (fun p => p = .pc ∨ p = .index) s t) ∧
    (decode (BitVec.ofNat 16 (0xF029 + x.val * 256)) = .ok (.ldF x) ∧
      ∃ t, exec (.ldF x) s = .next t ∧ t.i.toNat = (s.getV x).toNat * 5 ∧
        t.pc = s.pc + 2 ∧ ChangesOnly (fun p => p = .pc ∨ p = .index) s t)

/-- 43_index_memory.md R164 (the spec's decision D7 for the range check): the three decimal digits at I,
I + 1, I + 2 when all three addresses exist, else MemoryOutOfRange at the lowest offending address. -/
def Obligations.DecimalDigitsAreStored : Prop :=
  ∀ (x : Reg) (s : State),
    decode (BitVec.ofNat 16 (0xF033 + x.val * 256)) = .ok (.ldB x) ∧
    (s.effAddr 2 ≤ 0xFFF → ∃ t, exec (.ldB x) s = .next t ∧
      (t.mem.read (s.effAddr 0)).toNat = (s.getV x).toNat / 100 ∧
      (t.mem.read (s.effAddr 1)).toNat = (s.getV x).toNat / 10 % 10 ∧
      (t.mem.read (s.effAddr 2)).toNat = (s.getV x).toNat % 10 ∧
      t.pc = s.pc + 2 ∧
      ChangesOnly (fun p => p = .pc ∨ ∃ k < 3, p = .byte (s.effAddr k)) s t) ∧
    (0xFFF < s.effAddr 2 → Raises (.ldB x) s ⟨.memoryOutOfRange, s.pc,
      some (BitVec.ofNat 16 (0xF033 + x.val * 256)), some (BitVec.ofNat 16 (max s.i.toNat 0x1000))⟩)

/-- 43_index_memory.md R166: V0..Vx to I..I+x, or MemoryOutOfRange and no effect (the spec's decisions D7 for
the range check, D13 for I, D21 and D22 for the error's state and record). Log entry 13. -/
def Obligations.RegisterBlockIsStored : Prop :=
  ∀ (x : Reg) (s : State),
    decode (BitVec.ofNat 16 (0xF055 + x.val * 256)) = .ok (.ldStore x) ∧
    (s.effAddr x.val ≤ 0xFFF → ∃ t, exec (.ldStore x) s = .next t ∧
      (∀ k : Reg, k ≤ x → t.mem.read (s.effAddr k.val) = s.getV k) ∧ t.pc = s.pc + 2 ∧
      ChangesOnly (fun p => p = .pc ∨ ∃ k : Reg, k ≤ x ∧ p = .byte (s.effAddr k.val)) s t) ∧
    (0xFFF < s.effAddr x.val → Raises (.ldStore x) s ⟨.memoryOutOfRange, s.pc,
      some (BitVec.ofNat 16 (0xF055 + x.val * 256)), some (BitVec.ofNat 16 (max s.i.toNat 0x1000))⟩)

/-- 43_index_memory.md R167: I..I+x to V0..Vx, or MemoryOutOfRange and no effect (the spec's decisions D7 for
the range check, D13 for I, D21 and D22 for the error's state and record). Log entry 13. -/
def Obligations.RegisterBlockIsLoaded : Prop :=
  ∀ (x : Reg) (s : State),
    decode (BitVec.ofNat 16 (0xF065 + x.val * 256)) = .ok (.ldLoad x) ∧
    (s.effAddr x.val ≤ 0xFFF → ∃ t, exec (.ldLoad x) s = .next t ∧
      (∀ k : Reg, k ≤ x → t.getV k = s.mem.read (s.effAddr k.val)) ∧ t.pc = s.pc + 2 ∧
      ChangesOnly (fun p => p = .pc ∨ ∃ k : Reg, k ≤ x ∧ p = .reg k) s t) ∧
    (0xFFF < s.effAddr x.val → Raises (.ldLoad x) s ⟨.memoryOutOfRange, s.pc,
      some (BitVec.ofNat 16 (0xF065 + x.val * 256)), some (BitVec.ofNat 16 (max s.i.toNat 0x1000))⟩)

/-- 20_memory.md R62 (the spec's decision D27): an opcode that FX55 has stored is what a later fetch at
its address reads. -/
def Obligations.StoredBytesAreFetched : Prop :=
  ∀ (x : Reg) (s t : State) (j k : Reg), exec (.ldStore x) s = .next t → s.effAddr x.val ≤ 0xFFF →
    k ≤ x → j.val + 1 = k.val → s.effAddr j.val % 2 = 0 →
    (t.setPc (BitVec.ofNat 16 (s.effAddr j.val))).fetch = .ok (joinBytes (s.getV j) (s.getV k))

/-! ### The display -/

/-- 44_display.md R180. -/
def Obligations.ClearTurnsEveryCellOff : Prop :=
  decode 0x00E0#16 = .ok .cls ∧
  ∀ s : State, ∃ t, exec .cls s = .next t ∧ (∀ q, t.disp.get q = false) ∧ t.pc = s.pc + 2 ∧
    ChangesOnly (fun p => p = .pc ∨ ∃ q, p = .cell q) s t

/-- 44_display.md R182, R185, R186 (the spec's decisions D7, D14, D15 and D16): a cell is inverted exactly
when a 1 bit of the sprite lands on it, and VF is 1 exactly when one lands on a cell that was on. With
no row there is nothing to read, and nothing is drawn. -/
def Obligations.DrawInvertsTheSpritesCells : Prop :=
  ∀ (x y : Reg) (n : Nat) (s : State), n ≤ 15 → n = 0 ∨ s.effAddr (n - 1) ≤ 0xFFF →
    decode (BitVec.ofNat 16 (0xD000 + x.val * 256 + y.val * 16 + n)) = .ok (.drw x y n) ∧
    ∃ t, exec (.drw x y n) s = .next t ∧ t.pc = s.pc + 2 ∧
      (∀ q, t.disp.get q ≠ s.disp.get q ↔
        ∃ r < n, ∃ c < 8, SpriteBitLandsOn s (s.getV x) (s.getV y) r c q) ∧
      ((∃ r < n, ∃ c < 8, ∃ q, SpriteBitLandsOn s (s.getV x) (s.getV y) r c q ∧ s.disp.get q = true) →
        t.getV vf = 1) ∧
      ((¬ ∃ r < n, ∃ c < 8, ∃ q, SpriteBitLandsOn s (s.getV x) (s.getV y) r c q ∧ s.disp.get q = true) →
        t.getV vf = 0) ∧
      ChangesOnly (fun p => p = .pc ∨ p = .reg vf ∨ ∃ q, p = .cell q) s t

/-- 44_display.md R182 (the spec's decision D7): the whole range is checked, and nothing is drawn. -/
def Obligations.DrawOutOfRangeHalts : Prop :=
  ∀ (x y : Reg) (n : Nat) (s : State), 1 ≤ n → n ≤ 15 → 0xFFF < s.effAddr (n - 1) →
    Raises (.drw x y n) s ⟨.memoryOutOfRange, s.pc,
      some (BitVec.ofNat 16 (0xD000 + x.val * 256 + y.val * 16 + n)),
      some (BitVec.ofNat 16 (max s.i.toNat 0x1000))⟩

/-- 44_display.md R184 (the spec's decision D14): where each EDGE_MODE puts a sprite's pixel. -/
def Obligations.EdgeModesPlacePixels : Prop :=
  ∀ (cx cy c r : Nat) (q : Pixel),
    (place .wrap cx cy c r = some q ↔ q.1.val = (cx + c) % 64 ∧ q.2.val = (cy + r) % 32) ∧
    (place .clip cx cy c r = some q ↔ q.1.val = cx + c ∧ q.2.val = cy + r) ∧
    (place .wrapStartClip cx cy c r = some q ↔ q.1.val = cx % 64 + c ∧ q.2.val = cy % 32 + r)

/-- 44_display.md R184 (the spec's decision D14): a sprite that stays on the grid is drawn alike in every
EDGE_MODE. -/
def Obligations.EdgeModesAgreeOnTheGrid : Prop :=
  ∀ (m m' : EdgeMode) (s : State) (cx cy : Byte) (n : Nat),
    cx.toNat + 7 ≤ 63 → n = 0 ∨ cy.toNat + n - 1 ≤ 31 →
    s.drawSprite m cx cy n = s.drawSprite m' cx cy n

/-- 44_display.md R182's pseudocode and R185: drawing the same sprite twice at the same place restores the
display, and the second draw collides exactly when the sprite has a 1 bit on a cell that was off at
first. R182's corner line and the source's property W6 (95_test_vectors.md) say "any on-grid 1 bit":
from the empty display of W6 that is the same, and where every such cell was on at first, R185 makes the
second draw find them all off. The coordinates are not in VF: the first draw writes VF, so a second one
with x = F or y = F would be at another place. -/
def Obligations.DrawingTwiceRestoresTheDisplay : Prop :=
  ∀ (x y : Reg) (n : Nat) (s : State), x ≠ vf → y ≠ vf → n ≤ 15 →
    n = 0 ∨ s.effAddr (n - 1) ≤ 0xFFF →
    ∃ t u, exec (.drw x y n) s = .next t ∧ exec (.drw x y n) t = .next u ∧
      (∀ q, u.disp.get q = s.disp.get q) ∧
      (u.getV vf = 1 ↔ ∃ r < n, ∃ c < 8, ∃ q,
        SpriteBitLandsOn s (s.getV x) (s.getV y) r c q ∧ s.disp.get q = false)

/-! ### Keys and timers -/

/-- 45_keys_timers.md R200, R201 (the spec's decisions D3 and D17), for a key number in range. -/
def Obligations.KeySkipsReadTheKey : Prop :=
  ∀ (x k : Reg) (s : State), (s.getV x).toNat = k.val →
    (decode (BitVec.ofNat 16 (0xE09E + x.val * 256)) = .ok (.skp x) ∧
      ∃ t, exec (.skp x) s = .next t ∧ ChangesOnly (· = .pc) s t ∧
        t.pc = if s.keys[k.val] = true then s.pc + 4 else s.pc + 2) ∧
    (decode (BitVec.ofNat 16 (0xE0A1 + x.val * 256)) = .ok (.sknp x) ∧
      ∃ t, exec (.sknp x) s = .next t ∧ ChangesOnly (· = .pc) s t ∧
        t.pc = if s.keys[k.val] = false then s.pc + 4 else s.pc + 2)

/-- 45_keys_timers.md R206 (the spec's decision D17): a key number above 0xF. -/
def Obligations.KeySkipsOutOfRangeHalt : Prop :=
  ∀ (x : Reg) (s : State), 0xF < (s.getV x).toNat →
    Raises (.skp x) s
      ⟨.keyIndexOutOfRange, s.pc, some (BitVec.ofNat 16 (0xE09E + x.val * 256)), none⟩ ∧
    Raises (.sknp x) s
      ⟨.keyIndexOutOfRange, s.pc, some (BitVec.ofNat 16 (0xE0A1 + x.val * 256)), none⟩

/-- 45_keys_timers.md R202, R204, R205. -/
def Obligations.TimerTransfers : Prop :=
  ∀ (x : Reg) (s : State),
    (decode (BitVec.ofNat 16 (0xF007 + x.val * 256)) = .ok (.ldVxDT x) ∧
      ∃ t, exec (.ldVxDT x) s = .next t ∧ t.getV x = s.dt ∧ t.pc = s.pc + 2 ∧
        ChangesOnly (fun p => p = .pc ∨ p = .reg x) s t) ∧
    (decode (BitVec.ofNat 16 (0xF015 + x.val * 256)) = .ok (.ldDTVx x) ∧
      ∃ t, exec (.ldDTVx x) s = .next t ∧ t.dt = s.getV x ∧ t.pc = s.pc + 2 ∧
        ChangesOnly (fun p => p = .pc ∨ p = .dt) s t) ∧
    (decode (BitVec.ofNat 16 (0xF018 + x.val * 256)) = .ok (.ldSTVx x) ∧
      ∃ t, exec (.ldSTVx x) s = .next t ∧ t.st = s.getV x ∧ t.view.st = s.getV x ∧ t.pc = s.pc + 2 ∧
        ChangesOnly (fun p => p = .pc ∨ p = .st) s t)

/-- 45_keys_timers.md R203 (the spec's decision D18): the wait begins with the key state latched and PC
past the instruction. -/
def Obligations.KeyWaitBegins : Prop :=
  ∀ (x : Reg) (s : State),
    decode (BitVec.ofNat 16 (0xF00A + x.val * 256)) = .ok (.ldVxK x) ∧
    ∃ t, exec (.ldVxK x) s = .next t ∧ t.status = .awaitingKey x s.keys ∧ t.pc = s.pc + 2 ∧
      ChangesOnly (fun p => p = .pc ∨ p = .status) s t

/-! ### Rules of the whole machine -/

/-- 60_exceptions.md R222 with 40_step_cycle.md R95 (the spec's decision D21) and the model's choice to
take an error as a next state (log entry 7): every instruction answers a next state from every state. -/
def Obligations.EveryInstructionAnswersANextState : Prop :=
  ∀ (i : Instr) (s : State), ∃ t, exec i s = .next t

/-- 60_exceptions.md R222 (the spec's decision D21): errors are precise, whichever instruction raises
them. -/
def Obligations.FatalErrorsDiscardEveryOtherEffect : Prop :=
  ∀ (i : Instr) (s t : State) (e : ErrorRecord), exec i s = .next t →
    t.status = .halted e → s.status ≠ .halted e →
    e.pc = s.pc ∧ ChangesOnly (· = .status) s t

/-- 60_exceptions.md R224's last list (the spec's decision D23): an instruction halts a running core only
by its own check. -/
def Obligations.OnlyOwnChecksHalt : Prop :=
  ∀ (i : Instr) (s t : State) (e : ErrorRecord), exec i s = .next t →
    s.status = .running → t.status = .halted e →
    ((∃ nnn, i = .call nnn) ∧ s.sp.val = 16 ∧ e.kind = .stackOverflow) ∨
    (i = .ret ∧ s.sp.val = 0 ∧ e.kind = .stackUnderflow) ∨
    ((∃ x y n, i = .drw x y n ∧ 1 ≤ n ∧ 0xFFF < s.effAddr (n - 1)) ∧ e.kind = .memoryOutOfRange) ∨
    ((∃ x, i = .ldB x) ∧ 0xFFF < s.effAddr 2 ∧ e.kind = .memoryOutOfRange) ∨
    ((∃ x : Reg, (i = .ldStore x ∨ i = .ldLoad x) ∧ 0xFFF < s.effAddr x.val) ∧
      e.kind = .memoryOutOfRange) ∨
    ((∃ x, (i = .skp x ∨ i = .sknp x) ∧ 0xF < (s.getV x).toNat) ∧ e.kind = .keyIndexOutOfRange)

/-- 40_step_cycle.md R99: "No other instruction may suspend", FX0A aside. -/
def Obligations.OnlyTheKeyWaitSuspends : Prop :=
  ∀ (i : Instr) (s t : State) (x : Reg) (latch : Keys), exec i s = .next t →
    s.status = .running → t.status = .awaitingKey x latch → i = .ldVxK x ∧ latch = s.keys

/-- 40_step_cycle.md R98 (the spec's decision D20): only FX15 changes DT, and only FX18 changes ST. -/
def Obligations.OnlyTimerInstructionsChangeTimers : Prop :=
  ∀ (i : Instr) (s t : State), exec i s = .next t →
    (t.dt ≠ s.dt → ∃ x, i = .ldDTVx x) ∧ (t.st ≠ s.st → ∃ x, i = .ldSTVx x)

/-- 10_state.md R30: only 00E0 and DXYN write the display. -/
def Obligations.OnlyClearAndDrawChangeTheDisplay : Prop :=
  ∀ (i : Instr) (s t : State), exec i s = .next t → t.disp ≠ s.disp →
    i = .cls ∨ ∃ x y n, i = .drw x y n

/-- 20_memory.md R50, R64: only FX33 and FX55 write memory. -/
def Obligations.OnlyStoresChangeMemory : Prop :=
  ∀ (i : Instr) (s t : State), exec i s = .next t → t.mem ≠ s.mem →
    ∃ x, i = .ldB x ∨ i = .ldStore x

/-- 10_state.md R25: only ANNN, FX1E and FX29 write I. -/
def Obligations.OnlyIndexInstructionsChangeI : Prop :=
  ∀ (i : Instr) (s t : State), exec i s = .next t → t.i ≠ s.i →
    (∃ nnn, i = .ldI nnn) ∨ ∃ x, i = .addI x ∨ i = .ldF x

/-- 10_state.md R26, R27: only 2NNN and 00EE write SP, and only 2NNN writes a stack slot. -/
def Obligations.OnlyCallAndReturnChangeTheStack : Prop :=
  ∀ (i : Instr) (s t : State), exec i s = .next t →
    (t.sp ≠ s.sp → i = .ret ∨ ∃ nnn, i = .call nnn) ∧ (t.stack ≠ s.stack → ∃ nnn, i = .call nnn)

/-- 10_state.md R21: VF is written as a side effect by six instructions and by DXYN, and by no other
instruction except one that names it as its destination. -/
def Obligations.OnlyFlagWritersAndDestinationsChangeVF : Prop :=
  ∀ (i : Instr) (s t : State), exec i s = .next t → t.getV vf ≠ s.getV vf →
    (∃ x y, i = .addReg x y ∨ i = .subReg x y ∨ i = .subnReg x y ∨ i = .shr x ∨ i = .shl x ∨
      ∃ n, i = .drw x y n) ∨
    (∃ y kk, i = .ldImm vf kk ∨ i = .addImm vf kk ∨ i = .ldReg vf y ∨ i = .orReg vf y ∨
      i = .andReg vf y ∨ i = .xorReg vf y ∨ i = .rnd vf kk ∨ i = .ldVxDT vf ∨ i = .ldLoad vf)

/-- 10_state.md R38: the random byte is used only by CXKK. Any other instruction does the same whatever it
is. -/
def Obligations.RandomByteReachesOnlyItsInstruction : Prop :=
  ∀ (i : Instr) (s : State) (b : Byte), (∀ x kk, i ≠ .rnd x kk) →
    ∃ t, exec i s = .next t ∧ exec i { s with rnd := b } = .next { t with rnd := b }

/-- 10_state.md R33: of the instructions, only EX9E, EXA1 and FX0A see the keys. Any other instruction
does the same whatever they are. -/
def Obligations.KeysReachOnlyTheirInstructions : Prop :=
  ∀ (i : Instr) (s : State) (ks : Keys), (∀ x, i ≠ .skp x ∧ i ≠ .sknp x ∧ i ≠ .ldVxK x) →
    ∃ t, exec i s = .next t ∧ exec i { s with keys := ks } = .next { t with keys := ks }

/-- 41_control_flow.md R119: a return with the stack as the call left it comes back after the call, with
SP as it was before. -/
def Obligations.ReturnUndoesCall : Prop :=
  ∀ (nnn : BitVec 12) (s : State), s.sp.val < 16 →
    ∃ t, exec (.call nnn) s = .next t ∧
      ∀ u : State, u.sp = t.sp → (∀ j : Fin 16, j.val < t.sp.val → u.stack[j.val] = t.stack[j.val]) →
        ∃ w, exec .ret u = .next w ∧ w.pc = s.pc + 2 ∧ w.sp = s.sp

/-! ### Invariants that every step keeps -/

/-- The canonical form of memory (the model's choice, log entry 8), kept by every transition, whatever the
host's operation is. -/
def Obligations.StepKeepsMemoryCanonical : Prop :=
  ∀ s t : State, s.MemCanonical → step s = .next t → t.MemCanonical

/-- 10_state.md R24: PC never exceeds 0x10FE, and no return address exceeds 0x1000. -/
def Obligations.StepKeepsPcBounded : Prop :=
  ∀ s t : State, s.PcBounded → step s = .next t → t.PcBounded

/-- 60_exceptions.md R220, R221 (the spec's decision D22): the record of a halted core has the fields of its
kind. -/
def Obligations.StepKeepsRecordsFitting : Prop :=
  ∀ s t : State, s.RecordFits → step s = .next t → t.RecordFits

/-- The three invariants hold after reset. -/
def Obligations.ResetMeetsTheInvariants : Prop :=
  State.reset.MemCanonical ∧ State.reset.PcBounded ∧ State.reset.RecordFits

/-! ### Runs -/

/-- 70_reset_and_hazards.md R245, "The core never stops of its own accord", with the model's choice to take an
error as a next state (log entry 7): whatever the host does next, a transition answers a next state. -/
def Obligations.EveryTransitionAnswersANextState : Prop :=
  ∀ s : State, ∃ t, step s = .next t

/-- 60_exceptions.md R223 and R230 (the spec's decisions D21 and D20): only `initialize` clears the record of
an error, and while halted only a tick changes anything of the core: it decrements the timers, floored at
0, as in every status. -/
def Obligations.OnlyInitializeLeavesHalted : Prop :=
  ∀ (s t : State) (e : ErrorRecord), s.status = .halted e → step s = .next t →
    (∃ program u, TakesUp s (.initProgram program) u) ∨
    (t.status = .halted e ∧
      ((∃ u, TakesUp s .tickTimers u) →
        t.dt.toNat = s.dt.toNat - 1 ∧ t.st.toNat = s.st.toNat - 1) ∧
      ChangesOnly (fun p => p = .host ∨ p = .opsDrawn ∨
        ((∃ u, TakesStep s u) ∧ (p = .keys ∨ p = .rnd)) ∨
        ((∃ u, TakesUp s .tickTimers u) ∧ (p = .dt ∨ p = .st))) s t)

/-- 70_reset_and_hazards.md R245 with 41_control_flow.md R111: a step at a `1NNN` self-jump leaves the core as
it was, in the status it had. -/
def Obligations.SelfJumpSpins : Prop :=
  ∀ s u : State, TakesStep s u → s.status = .running → s.pc.toNat % 2 = 0 → s.pc.toNat ≤ 0xFFE →
    (s.mem.readWord s.pc.toNat).toNat = 0x1000 + s.pc.toNat → step s = .next u ∧ u.result = .ok ()
end

