-- ==== Sys2Proof/Laws/Decode.lean ====
section
/-! SUPPORT. The opcode's fields as quotients and remainders, and the fields of an encoded word. -/

namespace Sys2Proof

/-! ### Fields of a word -/

theorem nibble_val (op : Word) (lo : Nat) : (nibble op lo).val = op.toNat / 2 ^ lo % 16 := by
  show (op.extractLsb' lo 4).toNat = _
  simp [BitVec.extractLsb'_toNat, Nat.shiftRight_eq_div_pow]

theorem fieldX_val (op : Word) : (fieldX op).val = op.toNat / 256 % 16 := nibble_val op 8

theorem fieldY_val (op : Word) : (fieldY op).val = op.toNat / 16 % 16 := nibble_val op 4

theorem fieldKK_toNat (op : Word) : (fieldKK op).toNat = op.toNat % 256 := by
  simp [fieldKK, BitVec.extractLsb'_toNat]

theorem fieldNNN_toNat (op : Word) : (fieldNNN op).toNat = op.toNat % 4096 := by
  simp [fieldNNN, BitVec.extractLsb'_toNat]

/-! ### Packed words as numbers -/

theorem toNat_append_mul {a b : Nat} (x : BitVec a) (y : BitVec b) :
    (x ++ y).toNat = x.toNat * 2 ^ b + y.toNat := by
  rw [BitVec.toNat_append, Nat.shiftLeft_eq, Nat.mul_comm,
    ← Nat.two_pow_add_eq_or_of_lt y.isLt]

theorem regBits_toNat (r : Reg) : (regBits r).toNat = r.val := by
  simp [regBits]

theorem packA_toNat (f : BitVec 4) (nnn : BitVec 12) :
    (packA f nnn).toNat = f.toNat * 4096 + nnn.toNat := toNat_append_mul f nnn

theorem packXK_toNat (f : BitVec 4) (x : Reg) (kk : Byte) :
    (packXK f x kk).toNat = f.toNat * 4096 + x.val * 256 + kk.toNat := by
  have h := toNat_append_mul (f ++ regBits x) kk
  rw [toNat_append_mul f (regBits x), regBits_toNat] at h
  refine h.trans ?_
  omega

theorem packXYN_toNat (f : BitVec 4) (x y : Reg) (n : BitVec 4) :
    (packXYN f x y n).toNat = f.toNat * 4096 + x.val * 256 + y.val * 16 + n.toNat := by
  have h := toNat_append_mul (f ++ regBits x ++ regBits y) n
  rw [toNat_append_mul (f ++ regBits x) (regBits y), toNat_append_mul f (regBits x),
    regBits_toNat, regBits_toNat] at h
  refine h.trans ?_
  omega

theorem joinBytes_toNat (hi lo : Byte) : (joinBytes hi lo).toNat = hi.toNat * 256 + lo.toNat :=
  toNat_append_mul hi lo

/-! ### Fields of packed words -/

section
variable (f n : BitVec 4) (x y : Reg) (kk : Byte) (nnn : BitVec 12)

@[simp] theorem family_packA : (nibble (packA f nnn) 12).val = f.toNat := by
  rw [nibble_val, packA_toNat]; have := nnn.isLt; have := f.isLt; omega
@[simp] theorem family_packXK : (nibble (packXK f x kk) 12).val = f.toNat := by
  rw [nibble_val, packXK_toNat]; have := kk.isLt; have := f.isLt; have := x.isLt; omega
@[simp] theorem family_packXYN : (nibble (packXYN f x y n) 12).val = f.toNat := by
  rw [nibble_val, packXYN_toNat]
  have := n.isLt; have := f.isLt; have := x.isLt; have := y.isLt; omega
@[simp] theorem fieldNNN_packA : fieldNNN (packA f nnn) = nnn := by
  apply BitVec.eq_of_toNat_eq
  rw [fieldNNN_toNat, packA_toNat]; have := nnn.isLt; omega
@[simp] theorem fieldX_packXK : fieldX (packXK f x kk) = x := by
  apply Fin.ext
  rw [fieldX_val, packXK_toNat]; have := kk.isLt; have := x.isLt; omega
@[simp] theorem fieldKK_packXK : fieldKK (packXK f x kk) = kk := by
  apply BitVec.eq_of_toNat_eq
  rw [fieldKK_toNat, packXK_toNat]; have := kk.isLt; omega
@[simp] theorem fieldX_packXYN : fieldX (packXYN f x y n) = x := by
  apply Fin.ext
  rw [fieldX_val, packXYN_toNat]; have := n.isLt; have := x.isLt; have := y.isLt; omega
@[simp] theorem fieldY_packXYN : fieldY (packXYN f x y n) = y := by
  apply Fin.ext
  rw [fieldY_val, packXYN_toNat]; have := n.isLt; have := y.isLt; omega
@[simp] theorem low_packXYN : (nibble (packXYN f x y n) 0).val = n.toNat := by
  rw [nibble_val, packXYN_toNat]; have := n.isLt; omega

end

/-! ### Decoding packed words, up to the family's own table -/

section
variable (f n : BitVec 4) (x y : Reg) (kk : Byte) (nnn : BitVec 12)

theorem decode_packA : decode (packA f nnn) = decodeFamily f.toNat (packA f nnn) :=
  congrArg (decodeFamily · _) (family_packA f nnn)
theorem decode_packXK : decode (packXK f x kk) = decodeFamily f.toNat (packXK f x kk) :=
  congrArg (decodeFamily · _) (family_packXK f x kk)
theorem decode_packXYN : decode (packXYN f x y n) = decodeFamily f.toNat (packXYN f x y n) :=
  congrArg (decodeFamily · _) (family_packXYN f n x y)
theorem decode_family8 :
    decode (packXYN 0x8#4 x y n) = decodeFamily8 n.toNat (packXYN 0x8#4 x y n) :=
  (decode_packXYN 0x8#4 n x y).trans (congrArg (decodeFamily8 · _) (low_packXYN 0x8#4 n x y))
theorem decode_familyE :
    decode (packXK 0xE#4 x kk) = decodeFamilyE kk.toNat (packXK 0xE#4 x kk) :=
  (decode_packXK 0xE#4 x kk).trans
    (congrArg (fun k : Byte => decodeFamilyE k.toNat _) (fieldKK_packXK 0xE#4 x kk))
theorem decode_familyF :
    decode (packXK 0xF#4 x kk) = decodeFamilyF kk.toNat (packXK 0xF#4 x kk) :=
  (decode_packXK 0xF#4 x kk).trans
    (congrArg (fun k : Byte => decodeFamilyF k.toNat _) (fieldKK_packXK 0xF#4 x kk))

end

/-! ### Numbers as words -/

/-- A number that is an encoding's value stands for that word. -/
theorem ofNat_eq_encode {i : Instr} {k : Nat} (hk : k = (encode i).toNat) :
    BitVec.ofNat 16 k = encode i := by
  rw [hk, BitVec.ofNat_toNat, BitVec.setWidth_eq]

/-- A number that is an encoding's value decodes as the encoding does. -/
theorem decode_ofNat {i : Instr} {k : Nat} (hd : decode (encode i) = .ok i)
    (hk : k = (encode i).toNat) : decode (BitVec.ofNat 16 k) = .ok i := by
  rw [ofNat_eq_encode hk, hd]

end Sys2Proof
end

