-- ==== Sys2Proof/Laws/State.lean ====
section
/-! SUPPORT. What each update of a state field does to every field: one lemma per field per update, so
that no later proof unfolds a record update. -/

namespace Sys2Proof.Machine

/-! ### setV -/

section
variable (s : State) (r : Reg) (b : Byte)

@[simp] theorem State.setV_mem : (s.setV r b).mem = s.mem := rfl
@[simp] theorem State.setV_v : (s.setV r b).v = s.v.set r.val b r.isLt := rfl
@[simp] theorem State.setV_i : (s.setV r b).i = s.i := rfl
@[simp] theorem State.setV_pc : (s.setV r b).pc = s.pc := rfl
@[simp] theorem State.setV_sp : (s.setV r b).sp = s.sp := rfl
@[simp] theorem State.setV_stack : (s.setV r b).stack = s.stack := rfl
@[simp] theorem State.setV_dt : (s.setV r b).dt = s.dt := rfl
@[simp] theorem State.setV_st : (s.setV r b).st = s.st := rfl
@[simp] theorem State.setV_disp : (s.setV r b).disp = s.disp := rfl
@[simp] theorem State.setV_status : (s.setV r b).status = s.status := rfl
@[simp] theorem State.setV_keys : (s.setV r b).keys = s.keys := rfl
@[simp] theorem State.setV_rnd : (s.setV r b).rnd = s.rnd := rfl
@[simp] theorem State.setV_host : (s.setV r b).host = s.host := rfl
@[simp] theorem State.setV_opsDrawn : (s.setV r b).opsDrawn = s.opsDrawn := rfl

end

/-! ### setRegBlock -/

section
variable (s : State) (x : Reg) (f : Nat → Byte)

@[simp] theorem State.setRegBlock_mem : (s.setRegBlock x f).mem = s.mem := by simp only [State.setRegBlock]
@[simp] theorem State.setRegBlock_v : (s.setRegBlock x f).v = Vector.ofFn fun k : Fin 16 => if k.val ≤ x.val then f k.val else s.v[k.val] := by simp only [State.setRegBlock]
@[simp] theorem State.setRegBlock_i : (s.setRegBlock x f).i = s.i := by simp only [State.setRegBlock]
@[simp] theorem State.setRegBlock_pc : (s.setRegBlock x f).pc = s.pc := by simp only [State.setRegBlock]
@[simp] theorem State.setRegBlock_sp : (s.setRegBlock x f).sp = s.sp := by simp only [State.setRegBlock]
@[simp] theorem State.setRegBlock_stack : (s.setRegBlock x f).stack = s.stack := by simp only [State.setRegBlock]
@[simp] theorem State.setRegBlock_dt : (s.setRegBlock x f).dt = s.dt := by simp only [State.setRegBlock]
@[simp] theorem State.setRegBlock_st : (s.setRegBlock x f).st = s.st := by simp only [State.setRegBlock]
@[simp] theorem State.setRegBlock_disp : (s.setRegBlock x f).disp = s.disp := by simp only [State.setRegBlock]
@[simp] theorem State.setRegBlock_status : (s.setRegBlock x f).status = s.status := by simp only [State.setRegBlock]
@[simp] theorem State.setRegBlock_keys : (s.setRegBlock x f).keys = s.keys := by simp only [State.setRegBlock]
@[simp] theorem State.setRegBlock_rnd : (s.setRegBlock x f).rnd = s.rnd := by simp only [State.setRegBlock]
@[simp] theorem State.setRegBlock_host : (s.setRegBlock x f).host = s.host := by simp only [State.setRegBlock]
@[simp] theorem State.setRegBlock_opsDrawn : (s.setRegBlock x f).opsDrawn = s.opsDrawn := by simp only [State.setRegBlock]

end

/-! ### setI -/

section
variable (s : State) (w : Word)

@[simp] theorem State.setI_mem : (s.setI w).mem = s.mem := rfl
@[simp] theorem State.setI_v : (s.setI w).v = s.v := rfl
@[simp] theorem State.setI_i : (s.setI w).i = w := rfl
@[simp] theorem State.setI_pc : (s.setI w).pc = s.pc := rfl
@[simp] theorem State.setI_sp : (s.setI w).sp = s.sp := rfl
@[simp] theorem State.setI_stack : (s.setI w).stack = s.stack := rfl
@[simp] theorem State.setI_dt : (s.setI w).dt = s.dt := rfl
@[simp] theorem State.setI_st : (s.setI w).st = s.st := rfl
@[simp] theorem State.setI_disp : (s.setI w).disp = s.disp := rfl
@[simp] theorem State.setI_status : (s.setI w).status = s.status := rfl
@[simp] theorem State.setI_keys : (s.setI w).keys = s.keys := rfl
@[simp] theorem State.setI_rnd : (s.setI w).rnd = s.rnd := rfl
@[simp] theorem State.setI_host : (s.setI w).host = s.host := rfl
@[simp] theorem State.setI_opsDrawn : (s.setI w).opsDrawn = s.opsDrawn := rfl

end

/-! ### setMem -/

section
variable (s : State) (m : Memory)

@[simp] theorem State.setMem_mem : (s.setMem m).mem = m := rfl
@[simp] theorem State.setMem_v : (s.setMem m).v = s.v := rfl
@[simp] theorem State.setMem_i : (s.setMem m).i = s.i := rfl
@[simp] theorem State.setMem_pc : (s.setMem m).pc = s.pc := rfl
@[simp] theorem State.setMem_sp : (s.setMem m).sp = s.sp := rfl
@[simp] theorem State.setMem_stack : (s.setMem m).stack = s.stack := rfl
@[simp] theorem State.setMem_dt : (s.setMem m).dt = s.dt := rfl
@[simp] theorem State.setMem_st : (s.setMem m).st = s.st := rfl
@[simp] theorem State.setMem_disp : (s.setMem m).disp = s.disp := rfl
@[simp] theorem State.setMem_status : (s.setMem m).status = s.status := rfl
@[simp] theorem State.setMem_keys : (s.setMem m).keys = s.keys := rfl
@[simp] theorem State.setMem_rnd : (s.setMem m).rnd = s.rnd := rfl
@[simp] theorem State.setMem_host : (s.setMem m).host = s.host := rfl
@[simp] theorem State.setMem_opsDrawn : (s.setMem m).opsDrawn = s.opsDrawn := rfl

end

/-! ### setStatus -/

section
variable (s : State) (u : Status)

@[simp] theorem State.setStatus_mem : (s.setStatus u).mem = s.mem := rfl
@[simp] theorem State.setStatus_v : (s.setStatus u).v = s.v := rfl
@[simp] theorem State.setStatus_i : (s.setStatus u).i = s.i := rfl
@[simp] theorem State.setStatus_pc : (s.setStatus u).pc = s.pc := rfl
@[simp] theorem State.setStatus_sp : (s.setStatus u).sp = s.sp := rfl
@[simp] theorem State.setStatus_stack : (s.setStatus u).stack = s.stack := rfl
@[simp] theorem State.setStatus_dt : (s.setStatus u).dt = s.dt := rfl
@[simp] theorem State.setStatus_st : (s.setStatus u).st = s.st := rfl
@[simp] theorem State.setStatus_disp : (s.setStatus u).disp = s.disp := rfl
@[simp] theorem State.setStatus_status : (s.setStatus u).status = u := rfl
@[simp] theorem State.setStatus_keys : (s.setStatus u).keys = s.keys := rfl
@[simp] theorem State.setStatus_rnd : (s.setStatus u).rnd = s.rnd := rfl
@[simp] theorem State.setStatus_host : (s.setStatus u).host = s.host := rfl
@[simp] theorem State.setStatus_opsDrawn : (s.setStatus u).opsDrawn = s.opsDrawn := rfl

end

/-! ### setPc -/

section
variable (s : State) (w : Word)

@[simp] theorem State.setPc_mem : (s.setPc w).mem = s.mem := rfl
@[simp] theorem State.setPc_v : (s.setPc w).v = s.v := rfl
@[simp] theorem State.setPc_i : (s.setPc w).i = s.i := rfl
@[simp] theorem State.setPc_pc : (s.setPc w).pc = w := rfl
@[simp] theorem State.setPc_sp : (s.setPc w).sp = s.sp := rfl
@[simp] theorem State.setPc_stack : (s.setPc w).stack = s.stack := rfl
@[simp] theorem State.setPc_dt : (s.setPc w).dt = s.dt := rfl
@[simp] theorem State.setPc_st : (s.setPc w).st = s.st := rfl
@[simp] theorem State.setPc_disp : (s.setPc w).disp = s.disp := rfl
@[simp] theorem State.setPc_status : (s.setPc w).status = s.status := rfl
@[simp] theorem State.setPc_keys : (s.setPc w).keys = s.keys := rfl
@[simp] theorem State.setPc_rnd : (s.setPc w).rnd = s.rnd := rfl
@[simp] theorem State.setPc_host : (s.setPc w).host = s.host := rfl
@[simp] theorem State.setPc_opsDrawn : (s.setPc w).opsDrawn = s.opsDrawn := rfl

end

/-! ### setDt -/

section
variable (s : State) (b : Byte)

@[simp] theorem State.setDt_mem : (s.setDt b).mem = s.mem := rfl
@[simp] theorem State.setDt_v : (s.setDt b).v = s.v := rfl
@[simp] theorem State.setDt_i : (s.setDt b).i = s.i := rfl
@[simp] theorem State.setDt_pc : (s.setDt b).pc = s.pc := rfl
@[simp] theorem State.setDt_sp : (s.setDt b).sp = s.sp := rfl
@[simp] theorem State.setDt_stack : (s.setDt b).stack = s.stack := rfl
@[simp] theorem State.setDt_dt : (s.setDt b).dt = b := rfl
@[simp] theorem State.setDt_st : (s.setDt b).st = s.st := rfl
@[simp] theorem State.setDt_disp : (s.setDt b).disp = s.disp := rfl
@[simp] theorem State.setDt_status : (s.setDt b).status = s.status := rfl
@[simp] theorem State.setDt_keys : (s.setDt b).keys = s.keys := rfl
@[simp] theorem State.setDt_rnd : (s.setDt b).rnd = s.rnd := rfl
@[simp] theorem State.setDt_host : (s.setDt b).host = s.host := rfl
@[simp] theorem State.setDt_opsDrawn : (s.setDt b).opsDrawn = s.opsDrawn := rfl

end

/-! ### setSt -/

section
variable (s : State) (b : Byte)

@[simp] theorem State.setSt_mem : (s.setSt b).mem = s.mem := rfl
@[simp] theorem State.setSt_v : (s.setSt b).v = s.v := rfl
@[simp] theorem State.setSt_i : (s.setSt b).i = s.i := rfl
@[simp] theorem State.setSt_pc : (s.setSt b).pc = s.pc := rfl
@[simp] theorem State.setSt_sp : (s.setSt b).sp = s.sp := rfl
@[simp] theorem State.setSt_stack : (s.setSt b).stack = s.stack := rfl
@[simp] theorem State.setSt_dt : (s.setSt b).dt = s.dt := rfl
@[simp] theorem State.setSt_st : (s.setSt b).st = b := rfl
@[simp] theorem State.setSt_disp : (s.setSt b).disp = s.disp := rfl
@[simp] theorem State.setSt_status : (s.setSt b).status = s.status := rfl
@[simp] theorem State.setSt_keys : (s.setSt b).keys = s.keys := rfl
@[simp] theorem State.setSt_rnd : (s.setSt b).rnd = s.rnd := rfl
@[simp] theorem State.setSt_host : (s.setSt b).host = s.host := rfl
@[simp] theorem State.setSt_opsDrawn : (s.setSt b).opsDrawn = s.opsDrawn := rfl

end

/-! ### setDisp -/

section
variable (s : State) (d : Display)

@[simp] theorem State.setDisp_mem : (s.setDisp d).mem = s.mem := rfl
@[simp] theorem State.setDisp_v : (s.setDisp d).v = s.v := rfl
@[simp] theorem State.setDisp_i : (s.setDisp d).i = s.i := rfl
@[simp] theorem State.setDisp_pc : (s.setDisp d).pc = s.pc := rfl
@[simp] theorem State.setDisp_sp : (s.setDisp d).sp = s.sp := rfl
@[simp] theorem State.setDisp_stack : (s.setDisp d).stack = s.stack := rfl
@[simp] theorem State.setDisp_dt : (s.setDisp d).dt = s.dt := rfl
@[simp] theorem State.setDisp_st : (s.setDisp d).st = s.st := rfl
@[simp] theorem State.setDisp_disp : (s.setDisp d).disp = d := rfl
@[simp] theorem State.setDisp_status : (s.setDisp d).status = s.status := rfl
@[simp] theorem State.setDisp_keys : (s.setDisp d).keys = s.keys := rfl
@[simp] theorem State.setDisp_rnd : (s.setDisp d).rnd = s.rnd := rfl
@[simp] theorem State.setDisp_host : (s.setDisp d).host = s.host := rfl
@[simp] theorem State.setDisp_opsDrawn : (s.setDisp d).opsDrawn = s.opsDrawn := rfl

end

/-! ### setInputs -/

section
variable (s : State) (k : Keys) (b : Byte)

@[simp] theorem State.setInputs_mem : (s.setInputs k b).mem = s.mem := rfl
@[simp] theorem State.setInputs_v : (s.setInputs k b).v = s.v := rfl
@[simp] theorem State.setInputs_i : (s.setInputs k b).i = s.i := rfl
@[simp] theorem State.setInputs_pc : (s.setInputs k b).pc = s.pc := rfl
@[simp] theorem State.setInputs_sp : (s.setInputs k b).sp = s.sp := rfl
@[simp] theorem State.setInputs_stack : (s.setInputs k b).stack = s.stack := rfl
@[simp] theorem State.setInputs_dt : (s.setInputs k b).dt = s.dt := rfl
@[simp] theorem State.setInputs_st : (s.setInputs k b).st = s.st := rfl
@[simp] theorem State.setInputs_disp : (s.setInputs k b).disp = s.disp := rfl
@[simp] theorem State.setInputs_status : (s.setInputs k b).status = s.status := rfl
@[simp] theorem State.setInputs_keys : (s.setInputs k b).keys = k := rfl
@[simp] theorem State.setInputs_rnd : (s.setInputs k b).rnd = b := rfl
@[simp] theorem State.setInputs_host : (s.setInputs k b).host = s.host := rfl
@[simp] theorem State.setInputs_opsDrawn : (s.setInputs k b).opsDrawn = s.opsDrawn := rfl

end

/-! ### setSp -/

section
variable (s : State) (n : Fin 17)

@[simp] theorem State.setSp_mem : (s.setSp n).mem = s.mem := rfl
@[simp] theorem State.setSp_v : (s.setSp n).v = s.v := rfl
@[simp] theorem State.setSp_i : (s.setSp n).i = s.i := rfl
@[simp] theorem State.setSp_pc : (s.setSp n).pc = s.pc := rfl
@[simp] theorem State.setSp_sp : (s.setSp n).sp = n := rfl
@[simp] theorem State.setSp_stack : (s.setSp n).stack = s.stack := rfl
@[simp] theorem State.setSp_dt : (s.setSp n).dt = s.dt := rfl
@[simp] theorem State.setSp_st : (s.setSp n).st = s.st := rfl
@[simp] theorem State.setSp_disp : (s.setSp n).disp = s.disp := rfl
@[simp] theorem State.setSp_status : (s.setSp n).status = s.status := rfl
@[simp] theorem State.setSp_keys : (s.setSp n).keys = s.keys := rfl
@[simp] theorem State.setSp_rnd : (s.setSp n).rnd = s.rnd := rfl
@[simp] theorem State.setSp_host : (s.setSp n).host = s.host := rfl
@[simp] theorem State.setSp_opsDrawn : (s.setSp n).opsDrawn = s.opsDrawn := rfl

end

/-! ### setSlot -/

section
variable (s : State) (j : Fin 16) (w : Word)

@[simp] theorem State.setSlot_mem : (s.setSlot j w).mem = s.mem := rfl
@[simp] theorem State.setSlot_v : (s.setSlot j w).v = s.v := rfl
@[simp] theorem State.setSlot_i : (s.setSlot j w).i = s.i := rfl
@[simp] theorem State.setSlot_pc : (s.setSlot j w).pc = s.pc := rfl
@[simp] theorem State.setSlot_sp : (s.setSlot j w).sp = s.sp := rfl
@[simp] theorem State.setSlot_stack : (s.setSlot j w).stack = s.stack.set j.val w j.isLt := rfl
@[simp] theorem State.setSlot_dt : (s.setSlot j w).dt = s.dt := rfl
@[simp] theorem State.setSlot_st : (s.setSlot j w).st = s.st := rfl
@[simp] theorem State.setSlot_disp : (s.setSlot j w).disp = s.disp := rfl
@[simp] theorem State.setSlot_status : (s.setSlot j w).status = s.status := rfl
@[simp] theorem State.setSlot_keys : (s.setSlot j w).keys = s.keys := rfl
@[simp] theorem State.setSlot_rnd : (s.setSlot j w).rnd = s.rnd := rfl
@[simp] theorem State.setSlot_host : (s.setSlot j w).host = s.host := rfl
@[simp] theorem State.setSlot_opsDrawn : (s.setSlot j w).opsDrawn = s.opsDrawn := rfl

end

/-! ### Reading registers -/

section
variable (s : State)

@[simp] theorem State.getV_setV (r q : Reg) (b : Byte) :
    (s.setV r b).getV q = if q = r then b else s.getV q := by
  by_cases e : q = r
  · simp [State.getV, e]
  · have e' : ¬ r.val = q.val := fun h' => e (Fin.ext h'.symm)
    simp [State.getV, e, e']

@[simp] theorem State.getV_setRegBlock (x q : Reg) (f : Nat → Byte) :
    (s.setRegBlock x f).getV q = if q.val ≤ x.val then f q.val else s.getV q := by
  simp [State.getV, State.setRegBlock]

@[simp] theorem State.getV_setI (r : Reg) (w : Word) : (s.setI w).getV r = s.getV r := rfl
@[simp] theorem State.getV_setMem (r : Reg) (m : Memory) : (s.setMem m).getV r = s.getV r := rfl
@[simp] theorem State.getV_setStatus (r : Reg) (u : Status) : (s.setStatus u).getV r = s.getV r := rfl
@[simp] theorem State.getV_setPc (r : Reg) (w : Word) : (s.setPc w).getV r = s.getV r := rfl
@[simp] theorem State.getV_setDt (r : Reg) (b : Byte) : (s.setDt b).getV r = s.getV r := rfl
@[simp] theorem State.getV_setSt (r : Reg) (b : Byte) : (s.setSt b).getV r = s.getV r := rfl
@[simp] theorem State.getV_setDisp (r : Reg) (d : Display) : (s.setDisp d).getV r = s.getV r := rfl
@[simp] theorem State.getV_setSp (r : Reg) (n : Fin 17) : (s.setSp n).getV r = s.getV r := rfl
@[simp] theorem State.getV_setSlot (r : Reg) (j : Fin 16) (w : Word) : (s.setSlot j w).getV r = s.getV r := rfl
@[simp] theorem State.getV_setInputs (r : Reg) (k : Keys) (b : Byte) : (s.setInputs k b).getV r = s.getV r := rfl

end

/-! ### Derived updates, pushed down to the ones above -/

section
variable (s : State)

@[simp] theorem State.advance_eq : s.advance = s.setPc (s.pc + 2) := rfl

@[simp] theorem State.skipIf_eq (c : Bool) : s.skipIf c = s.setPc (if c then s.pc + 4 else s.pc + 2) := rfl

@[simp] theorem State.raise_eq (k : ErrorKind) (opcode addr : Option Word) :
    s.raise k opcode addr = s.setStatus (.halted ⟨k, s.pc, opcode, addr⟩) := rfl

@[simp] theorem State.writeReg_eq (x : Reg) (b : Byte) :
    s.writeReg x b = (s.setV x b).setPc (s.pc + 2) := rfl

@[simp] theorem State.writeWithFlag_eq (x : Reg) (b f : Byte) :
    s.writeWithFlag x b f = ((s.setV x b).setV vf f).setPc (s.pc + 2) := rfl

@[simp] theorem State.effAddr_zero : s.effAddr 0 = s.i.toNat := rfl

end

end Sys2Proof.Machine
end

