-- ==== Sys2Proof/Laws/Display.lean ====
section
/-! SUPPORT. The laws of the display buffer and of drawing a sprite. -/

namespace Sys2Proof.Machine

@[simp] theorem Display.get_blank (p : Pixel) : Display.blank.get p = false := by
  simp [Display.get]

/-- Toggling a cell changes that cell only. -/
@[simp] theorem Display.get_flip (d : Display) (p q : Pixel) :
    (d.flip p).get q = if q = p then !d.get p else d.get q := by
  obtain ⟨px, py⟩ := p
  obtain ⟨qx, qy⟩ := q
  by_cases hx : px = qx
  · subst hx
    by_cases hy : py = qy
    · subst hy; simp [Display.get, Display.flip]
    · have hy' : ¬ py.val = qy.val := fun h => hy (Fin.ext h)
      simp [Display.get, Display.flip, hy', Ne.symm hy]
  · have hx' : ¬ px.val = qx.val := fun h => hx (Fin.ext h)
    simp [Display.get, Display.flip, hx', Ne.symm hx]

/-- Two display buffers with the same cells are equal. -/
theorem Display.ext_get (d e : Display) (h : ∀ p : Pixel, d.get p = e.get p) : d = e := by
  refine Vector.ext fun x hx => Vector.ext fun y hy => ?_
  exact h (⟨x, hx⟩, ⟨y, hy⟩)

/-- Toggling distinct cells: each listed cell is inverted and no other. -/
theorem Display.get_xorPixels (d : Display) (ps : List Pixel) (h : ps.Nodup) (q : Pixel) :
    (d.xorPixels ps).1.get q = (d.get q ^^ decide (q ∈ ps)) := by
  induction ps generalizing d with
  | nil => simp [Display.xorPixels]
  | cons p ps ih =>
    obtain ⟨hp, hps⟩ := List.nodup_cons.mp h
    rw [Display.xorPixels, ih _ hps, Display.get_flip]
    by_cases hq : q = p
    · subst hq; simp [hp]
    · simp [hq]

/-- Toggling distinct cells collides exactly when one of them was on. -/
theorem Display.xorPixels_collide (d : Display) (ps : List Pixel) (h : ps.Nodup) :
    (d.xorPixels ps).2 = ps.any (fun p => d.get p) := by
  induction ps generalizing d with
  | nil => rfl
  | cons p ps ih =>
    obtain ⟨hp, hps⟩ := List.nodup_cons.mp h
    rw [Display.xorPixels, ih _ hps, List.any_cons]
    have same : (ps.any fun q => (d.flip p).get q) = ps.any fun q => d.get q := by
      rw [Bool.eq_iff_iff, List.any_eq_true, List.any_eq_true]
      refine exists_congr fun q => and_congr_right fun hq => ?_
      have : q ≠ p := fun h' => hp (h' ▸ hq)
      simp [this]
    rw [same]

/-- Two cells of one sprite never land on one cell of the grid (44_display.md R184). -/
theorem place_inj (mode : EdgeMode) (cx cy c r c' r' : Nat) (p : Pixel)
    (hc : c < 8) (hc' : c' < 8) (hr : r ≤ 15) (hr' : r' ≤ 15)
    (h : place mode cx cy c r = some p) (h' : place mode cx cy c' r' = some p) : c = c' ∧ r = r' := by
  cases mode <;> simp only [place] at h h'
  · have := h.trans h'.symm
    simp only [Option.some.injEq, Prod.mk.injEq, Fin.mk.injEq] at this
    omega
  all_goals
    split at h <;> split at h' <;> simp_all
    have := h.trans h'.symm
    simp only [Prod.mk.injEq, Fin.mk.injEq] at this
    omega

/-- The cells one row toggles: bit 7 − c of its byte is column c. -/
theorem mem_rowPixels (mode : EdgeMode) (cx cy r : Nat) (row : Byte) (p : Pixel) :
    p ∈ rowPixels mode cx cy r row ↔
      ∃ c < 8, row.getLsbD (7 - c) = true ∧ place mode cx cy c r = some p := by
  simp [rowPixels]

/-- The cells a sprite toggles. -/
theorem mem_spritePixels (mode : EdgeMode) (m : Memory) (base cx cy n : Nat) (p : Pixel) :
    p ∈ spritePixels mode m base cx cy n ↔
      ∃ r < n, ∃ c < 8, (m.read (base + r)).getLsbD (7 - c) = true ∧ place mode cx cy c r = some p := by
  simp [spritePixels, mem_rowPixels]

theorem nodup_rowPixels (mode : EdgeMode) (cx cy r : Nat) (row : Byte) (hr : r ≤ 15) :
    (rowPixels mode cx cy r row).Nodup := by
  refine List.Pairwise.filterMap _ ?_ (List.Pairwise.and_mem.mp (List.pairwise_lt_range (n := 8)))
  rintro c c' ⟨hc, hc', hlt⟩ p hp p' hp' rfl
  simp only [List.mem_range] at hc hc'
  split at hp
  case isFalse => simp at hp
  split at hp'
  case isFalse => simp at hp'
  exact absurd (place_inj mode cx cy c r c' r p hc hc' hr hr hp hp').1 (by omega)

/-- A sprite of at most 15 rows toggles no cell twice (44_display.md R184). -/
theorem nodup_spritePixels (mode : EdgeMode) (m : Memory) (base cx cy n : Nat) (hn : n ≤ 15) :
    (spritePixels mode m base cx cy n).Nodup := by
  refine List.nodup_flatMap.mpr ⟨fun r hr => nodup_rowPixels _ _ _ _ _ ?_, ?_⟩
  · rw [List.mem_range] at hr; omega
  · refine (List.Pairwise.and_mem.mp (List.pairwise_lt_range (n := n))).imp ?_
    rintro r r' ⟨hr, hr', hlt⟩
    rw [List.mem_range] at hr hr'
    intro p hp hp'
    obtain ⟨c, hc, -, h⟩ := (mem_rowPixels ..).mp hp
    obtain ⟨c', hc', -, h'⟩ := (mem_rowPixels ..).mp hp'
    exact absurd (place_inj mode cx cy c r c' r' p hc hc' (by omega) (by omega) h h').2 (by omega)

/-- What drawing does to a cell: it is inverted exactly when a 1 bit of the sprite lands on it
(44_display.md R182). -/
theorem get_drawn (d : Display) (mode : EdgeMode) (m : Memory) (base cx cy n : Nat) (hn : n ≤ 15)
    (q : Pixel) :
    (d.xorPixels (spritePixels mode m base cx cy n)).1.get q ≠ d.get q ↔
      ∃ r < n, ∃ c < 8,
        (m.read (base + r)).getLsbD (7 - c) = true ∧ place mode cx cy c r = some q := by
  rw [Display.get_xorPixels _ _ (nodup_spritePixels _ _ _ _ _ _ hn), ← mem_spritePixels]
  cases d.get q <;> simp

/-- When drawing collides (44_display.md R185). -/
theorem drawn_collide (d : Display) (mode : EdgeMode) (m : Memory) (base cx cy n : Nat) (hn : n ≤ 15) :
    (d.xorPixels (spritePixels mode m base cx cy n)).2 = true ↔
      ∃ r < n, ∃ c < 8, ∃ q, (m.read (base + r)).getLsbD (7 - c) = true ∧
        place mode cx cy c r = some q ∧ d.get q = true := by
  rw [Display.xorPixels_collide _ _ (nodup_spritePixels _ _ _ _ _ _ hn)]
  simp only [List.any_eq_true, mem_spritePixels]
  constructor
  · rintro ⟨q, ⟨r, hr, c, hc, hb, hp⟩, hq⟩
    exact ⟨r, hr, c, hc, q, hb, hp, hq⟩
  · rintro ⟨r, hr, c, hc, q, hb, hp, hq⟩
    exact ⟨q, ⟨r, hr, c, hc, hb, hp⟩, hq⟩

/-! ### The fields after a draw -/

section
variable (s : State) (mode : EdgeMode) (cx cy : Byte) (n : Nat)

@[simp] theorem State.drawSprite_disp : (s.drawSprite mode cx cy n).disp =
    (s.disp.xorPixels (spritePixels mode s.mem s.i.toNat cx.toNat cy.toNat n)).1 := rfl
@[simp] theorem State.drawSprite_mem : (s.drawSprite mode cx cy n).mem = s.mem := rfl
@[simp] theorem State.drawSprite_i : (s.drawSprite mode cx cy n).i = s.i := rfl
@[simp] theorem State.drawSprite_pc : (s.drawSprite mode cx cy n).pc = s.pc + 2 := rfl
@[simp] theorem State.drawSprite_sp : (s.drawSprite mode cx cy n).sp = s.sp := rfl
@[simp] theorem State.drawSprite_stack : (s.drawSprite mode cx cy n).stack = s.stack := rfl
@[simp] theorem State.drawSprite_dt : (s.drawSprite mode cx cy n).dt = s.dt := rfl
@[simp] theorem State.drawSprite_st : (s.drawSprite mode cx cy n).st = s.st := rfl
@[simp] theorem State.drawSprite_status : (s.drawSprite mode cx cy n).status = s.status := rfl
@[simp] theorem State.drawSprite_keys : (s.drawSprite mode cx cy n).keys = s.keys := rfl
@[simp] theorem State.drawSprite_rnd : (s.drawSprite mode cx cy n).rnd = s.rnd := rfl
@[simp] theorem State.drawSprite_host : (s.drawSprite mode cx cy n).host = s.host := rfl
@[simp] theorem State.drawSprite_opsDrawn :
    (s.drawSprite mode cx cy n).opsDrawn = s.opsDrawn := rfl
@[simp] theorem State.getV_drawSprite (r : Reg) : (s.drawSprite mode cx cy n).getV r =
    if r = vf then
      collisionFlag (s.disp.xorPixels (spritePixels mode s.mem s.i.toNat cx.toNat cy.toNat n)).2
    else s.getV r := by
  simp [State.drawSprite]

end

end Sys2Proof.Machine
end

