-- ==== Sys2Proof/Laws/Memory.lean ====
section
/-! SUPPORT. The laws of memory: what a read sees after a write, and that every operation keeps the
canonical form. -/

namespace Sys2Proof.Machine

/-! ### Reading after writing -/

theorem Memory.read_filter (m : Memory) (a q : Nat) :
    Memory.read (m.filter (fun c => c.1 ≠ a)) q = if q = a then Memory.background q else m.read q := by
  induction m with
  | nil => simp [Memory.read]
  | cons c m ih =>
    by_cases hc : c.1 = a
    · rw [List.filter_cons_of_neg (by simpa using hc), ih]
      by_cases hq : q = a
      · simp [hq]
      · have : c.1 ≠ q := fun h => hq (h.symm.trans hc)
        simp [Memory.read, hq, this]
    · rw [List.filter_cons_of_pos (by simpa using hc)]
      by_cases hq : q = a
      · have : c.1 ≠ q := fun h => hc (h.trans hq)
        simp only [Memory.read, if_neg this, ih]
      · simp only [Memory.read, ih, if_neg hq]

theorem Memory.read_insert (m : Memory) (a q : Nat) (b : Byte) (h : ∀ c ∈ m, c.1 ≠ a) :
    (Memory.insert a b m).read q = if q = a then b else m.read q := by
  induction m with
  | nil => simp [Memory.insert, Memory.read, eq_comm]
  | cons c m ih =>
    have hc : c.1 ≠ a := h c (by simp)
    have ih := ih fun d hd => h d (by simp [hd])
    simp only [Memory.insert]
    split
    · simp [Memory.read, eq_comm]
    · by_cases hq : c.1 = q
      · have : q ≠ a := fun h' => hc (hq.trans h')
        simp [Memory.read, hq, this]
      · simp only [Memory.read, if_neg hq, ih]

/-- Read after write: the written byte at its address, every other address as before. -/
@[simp] theorem Memory.read_write (m : Memory) (a q : Nat) (b : Byte) :
    (m.write a b).read q = if q = a then b else m.read q := by
  unfold Memory.write
  split
  · next h => rw [Memory.read_filter]; split <;> simp_all
  · rw [Memory.read_insert _ _ _ _ (by simp), Memory.read_filter]
    split <;> rfl

/-- Read after byte writes at ascending addresses. -/
theorem Memory.read_writeBytes (m : Memory) (a q : Nat) (bs : List Byte) :
    (m.writeBytes a bs).read q =
      if h : a ≤ q ∧ q < a + bs.length then bs[q - a]'(by omega) else m.read q := by
  induction bs generalizing m a with
  | nil => simp [Memory.writeBytes]
  | cons b bs ih =>
    rw [Memory.writeBytes, ih]
    by_cases h0 : q = a
    · subst h0; simp
    · by_cases h1 : a ≤ q ∧ q < a + (b :: bs).length
      · have h2 : a + 1 ≤ q ∧ q < a + 1 + bs.length := by simp at h1; omega
        rw [dif_pos h1, dif_pos h2]
        simp only [show q - a = (q - (a + 1)) + 1 by omega, List.getElem_cons_succ]
      · have h2 : ¬ (a + 1 ≤ q ∧ q < a + 1 + bs.length) := by simp at h1; omega
        rw [dif_neg h1, dif_neg h2, Memory.read_write, if_neg h0]

/-- An address outside the bytes written reads as before. -/
theorem Memory.read_writeBytes_outside (m : Memory) (a q : Nat) (bs : List Byte)
    (h : ¬ (a ≤ q ∧ q < a + bs.length)) : (m.writeBytes a bs).read q = m.read q := by
  rw [Memory.read_writeBytes, dif_neg h]

/-! ### The canonical form -/

theorem Memory.wf_filter (m : Memory) (a : Nat) (h : m.wf) : Memory.wf (m.filter (fun c => c.1 ≠ a)) :=
  ⟨h.1.filter _, fun c hc => h.2 c (List.mem_of_mem_filter hc)⟩

theorem Memory.mem_insert (m : Memory) (a : Nat) (b : Byte) (c : Host.Cell)
    (h : c ∈ Memory.insert a b m) : c = (a, b) ∨ c ∈ m := by
  induction m with
  | nil => simpa [Memory.insert] using h
  | cons d m ih =>
    simp only [Memory.insert] at h
    split at h
    · simpa using h
    · rcases List.mem_cons.mp h with h | h
      · exact .inr (by simp [h])
      · rcases ih h with h | h
        · exact .inl h
        · exact .inr (by simp [h])

theorem Memory.pairwise_insert (m : Memory) (a : Nat) (b : Byte)
    (hm : m.Pairwise (fun c d => c.1 < d.1)) (h : ∀ c ∈ m, c.1 ≠ a) :
    (Memory.insert a b m).Pairwise (fun c d => c.1 < d.1) := by
  induction m with
  | nil => simp [Memory.insert]
  | cons c m ih =>
    have hc : c.1 ≠ a := h c (by simp)
    obtain ⟨h1, h2⟩ := List.pairwise_cons.mp hm
    simp only [Memory.insert]
    split
    · next hlt =>
      refine List.pairwise_cons.mpr ⟨fun d hd => ?_, hm⟩
      rcases List.mem_cons.mp hd with rfl | hd
      · exact hlt
      · exact lt_trans hlt (h1 d hd)
    · refine List.pairwise_cons.mpr ⟨fun d hd => ?_, ih h2 fun d hd => h d (by simp [hd])⟩
      rcases Memory.mem_insert m a b d hd with rfl | hd
      · show c.1 < a
        omega
      · exact h1 d hd

/-- A write inside the address space keeps the canonical form. -/
theorem Memory.wf_write (m : Memory) (a : Nat) (b : Byte) (h : m.wf) (ha : a ≤ 0xFFF) :
    (m.write a b).wf := by
  unfold Memory.write
  split
  · exact Memory.wf_filter m a h
  · next hb =>
    have hf := Memory.wf_filter m a h
    refine ⟨Memory.pairwise_insert _ a b hf.1 (by simp), fun c hc => ?_⟩
    rcases Memory.mem_insert _ _ _ _ hc with rfl | hc
    · exact ⟨ha, hb⟩
    · exact hf.2 c hc

/-- Byte writes inside the address space keep the canonical form. -/
theorem Memory.wf_writeBytes (m : Memory) (a : Nat) (bs : List Byte) (h : m.wf)
    (ha : a + bs.length ≤ 0x1000) : (m.writeBytes a bs).wf := by
  induction bs generalizing m a with
  | nil => exact h
  | cons b bs ih =>
    simp at ha
    exact ih _ _ (Memory.wf_write m a b h (by omega)) (by omega)

/-- The empty memory is canonical. -/
theorem Memory.wf_nil : Memory.wf [] := by simp [Memory.wf]

end Sys2Proof.Machine
end

