-- ==== Sys2Proof/Laws/Ops.lean ====
section
/-! SUPPORT. One lemma per shared operation: everything it can do. -/

namespace Sys2Proof.Machine

/-! ### Range checks -/

theorem checkRange_none (a n : Nat) (h : a + n - 1 ≤ 0xFFF) : checkRange a n = none := if_pos h

theorem checkRange_some (a n : Nat) (h : ¬ a + n - 1 ≤ 0xFFF) :
    checkRange a n = some (BitVec.ofNat 16 (max a 0x1000)) := if_neg h

/-- The lowest offending address lies above 0xFFF. -/
theorem badAddr_ge (w : Word) : 0x1000 ≤ (BitVec.ofNat 16 (max w.toNat 0x1000)).toNat := by
  have := w.isLt
  rw [BitVec.toNat_ofNat, Nat.mod_eq_of_lt (by omega)]
  omega

/-- A checked access either goes on, in range, or raises MemoryOutOfRange. -/
theorem withRange_cases (instr : Instr) (a n : Nat) (s goOn : State) :
    (a + n - 1 ≤ 0xFFF ∧ withRange instr a n s goOn = .next goOn) ∨
    (0xFFF < a + n - 1 ∧ withRange instr a n s goOn =
      .next (s.raise .memoryOutOfRange (some (encode instr)) (some (BitVec.ofNat 16 (max a 0x1000))))) := by
  by_cases h : a + n - 1 ≤ 0xFFF
  · exact .inl ⟨h, by rw [withRange, checkRange_none a n h]⟩
  · exact .inr ⟨by omega, by rw [withRange, checkRange_some a n h]⟩

theorem withRange_ok (instr : Instr) (a n : Nat) (s goOn : State) (h : a + n - 1 ≤ 0xFFF) :
    withRange instr a n s goOn = .next goOn := by
  rw [withRange, checkRange_none a n h]

theorem withRange_raises (instr : Instr) (a n : Nat) (s goOn : State) (h : 0xFFF < a + n - 1) :
    withRange instr a n s goOn =
      .next (s.raise .memoryOutOfRange (some (encode instr)) (some (BitVec.ofNat 16 (max a 0x1000)))) := by
  rw [withRange, checkRange_some a n (by omega)]

/-! ### The stack -/

/-- A push on a stack that is not full: one slot and SP change. -/
theorem State.push_some (s : State) (w : Word) (h : s.sp.val < 16) :
    s.push w = some ((s.setSlot ⟨s.sp.val, h⟩ w).setSp ⟨s.sp.val + 1, Nat.succ_lt_succ h⟩) := dif_pos h

theorem State.push_none (s : State) (w : Word) (h : s.sp.val = 16) : s.push w = none :=
  dif_neg (by omega)

/-- A pop from a stack that is not empty: SP changes, the slot does not. -/
theorem State.pop_some (s : State) (h : 0 < s.sp.val) :
    s.pop = some (s.stack[s.sp.val - 1]'(by omega), s.setSp ⟨s.sp.val - 1, by omega⟩) :=
  dif_pos h

theorem State.pop_none (s : State) (h : s.sp.val = 0) : s.pop = none := dif_neg (by omega)

/-! ### The register block and the digits -/

@[simp] theorem State.length_regBlock (s : State) (x : Reg) : (s.regBlock x).length = x.val + 1 := by
  simp [State.regBlock]

theorem State.getElem_regBlock (s : State) (x : Reg) (k : Nat) (h : k < (s.regBlock x).length) :
    (s.regBlock x)[k] = s.getV ⟨k, by rw [State.length_regBlock] at h; omega⟩ := by
  simp [State.regBlock, State.getV]

@[simp] theorem length_decimalDigits (b : Byte) : (decimalDigits b).length = 3 := rfl

/-! ### Keys -/

theorem State.keyState_some (s : State) (b : Byte) (h : b.toNat < 16) :
    s.keyState b = some (s.keys[b.toNat]'h) := dif_pos h

theorem State.keyState_none (s : State) (b : Byte) (h : 15 < b.toNat) : s.keyState b = none :=
  dif_neg (by omega)

/-- No key is newly pressed. -/
theorem lowestNewKey_none (keys latch : Keys)
    (h : ∀ k : Reg, ¬ (keys[k.val] = true ∧ latch[k.val] = false)) : lowestNewKey keys latch = none := by
  rw [lowestNewKey, List.find?_eq_none]
  intro k _
  simpa using h k

/-- The key found is newly pressed, and no lower one is. -/
theorem lowestNewKey_some (keys latch : Keys) (k : Reg) (hk : keys[k.val] = true)
    (hl : latch[k.val] = false)
    (h : ∀ j : Reg, j < k → ¬ (keys[j.val] = true ∧ latch[j.val] = false)) :
    lowestNewKey keys latch = some k := by
  rw [lowestNewKey, List.find?_eq_some_iff_append]
  refine ⟨by simp [hk, hl], (List.finRange 16).take k.val, (List.finRange 16).drop (k.val + 1), ?_, ?_⟩
  · conv_lhs => rw [← List.take_append_drop k.val (List.finRange 16)]
    rw [List.drop_eq_getElem_cons (by simp)]
    simp
  · intro j hj
    obtain ⟨i, hi, rfl⟩ := List.getElem_of_mem hj
    have hik : i < k.val := by simpa using (List.length_take_le _ _ |>.trans_lt' hi)
    have hi' := h ⟨i, by omega⟩ (Fin.lt_def.mpr hik)
    simp at hi' ⊢
    cases hki : keys[i] <;> simp_all

/-! ### Fetch -/

theorem State.fetch_ok (s : State) (he : s.pc.toNat % 2 = 0) (h : s.pc.toNat ≤ 0xFFE) :
    s.fetch = .ok (s.mem.readWord s.pc.toNat) := by
  rw [State.fetch, if_neg (by omega), if_neg (by show ¬ _ > 0xFFF; omega)]

theorem State.fetch_odd (s : State) (ho : s.pc.toNat % 2 = 1) :
    s.fetch = .error (.misalignedFetch, none) := if_pos ho

theorem State.fetch_high (s : State) (he : s.pc.toNat % 2 = 0) (h : 0x1000 ≤ s.pc.toNat) :
    s.fetch = .error (.memoryOutOfRange, some s.pc) := by
  have hm : max s.pc.toNat 0x1000 = s.pc.toNat := by omega
  rw [State.fetch, if_neg (by omega), if_pos (by show _ > 0xFFF; omega), hm, BitVec.ofNat_toNat,
    BitVec.setWidth_eq]

/-- A fetch that succeeds was from an even PC of at most 0xFFE. -/
theorem State.fetch_eq_ok (s : State) (op : Word) (h : s.fetch = .ok op) :
    s.pc.toNat % 2 = 0 ∧ s.pc.toNat ≤ 0xFFE ∧ op = s.mem.readWord s.pc.toNat := by
  by_cases ho : s.pc.toNat % 2 = 1
  · rw [s.fetch_odd ho] at h; cases h
  · by_cases hh : 0x1000 ≤ s.pc.toNat
    · rw [s.fetch_high (by omega) hh] at h; cases h
    · rw [s.fetch_ok (by omega) (by omega)] at h
      exact ⟨by omega, by omega, (Except.ok.inj h).symm⟩

end Sys2Proof.Machine
end

