-- ==== Sys2Proof/Laws/Exec.lean ====
section
/-! SUPPORT. What the execution of one instruction can do: the two outcomes of each instruction that has a
check of its own, and the inversion of `exec` for all instructions. -/

namespace Sys2Proof.Machine

/-! ### Instructions with a check of their own -/

theorem execCall_ok (nnn : BitVec 12) (s : State) (h : s.sp.val < 16) :
    execCall nnn s = .next (((s.setSlot ⟨s.sp.val, h⟩ (s.pc + 2)).setSp
      ⟨s.sp.val + 1, Nat.succ_lt_succ h⟩).setPc (zext16 nnn)) := by
  rw [execCall, s.push_some _ h]

theorem execCall_raises (nnn : BitVec 12) (s : State) (h : s.sp.val = 16) :
    execCall nnn s = .next (s.raise .stackOverflow (some (encode (.call nnn))) none) := by
  rw [execCall, s.push_none _ h]

theorem execRet_ok (s : State) (h : 0 < s.sp.val) :
    execRet s = .next ((s.setSp ⟨s.sp.val - 1, by omega⟩).setPc
      (s.stack[s.sp.val - 1]'(by omega))) := by
  rw [execRet, s.pop_some h]

theorem execRet_raises (s : State) (h : s.sp.val = 0) :
    execRet s = .next (s.raise .stackUnderflow (some (encode .ret)) none) := by
  rw [execRet, s.pop_none h]

theorem execSkp_ok (x : Reg) (s : State) (h : (s.getV x).toNat < 16) :
    execSkp x s = .next (s.skipIf (s.keys[(s.getV x).toNat]'h)) := by
  rw [execSkp, s.keyState_some _ h]

theorem execSkp_raises (x : Reg) (s : State) (h : 15 < (s.getV x).toNat) :
    execSkp x s = .next (s.raise .keyIndexOutOfRange (some (encode (.skp x))) none) := by
  rw [execSkp, s.keyState_none _ h]

theorem execSknp_ok (x : Reg) (s : State) (h : (s.getV x).toNat < 16) :
    execSknp x s = .next (s.skipIf (!(s.keys[(s.getV x).toNat]'h))) := by
  rw [execSknp, s.keyState_some _ h]

theorem execSknp_raises (x : Reg) (s : State) (h : 15 < (s.getV x).toNat) :
    execSknp x s = .next (s.raise .keyIndexOutOfRange (some (encode (.sknp x))) none) := by
  rw [execSknp, s.keyState_none _ h]

/-- A draw whose rows, if any, are all in range. -/
theorem execDrw_ok (x y : Reg) (n : Nat) (s : State) (h : n = 0 ∨ s.i.toNat + n - 1 ≤ 0xFFF) :
    execDrw x y n s = .next (s.drawSprite Config.edgeMode (s.getV x) (s.getV y) n) := by
  by_cases hn : n = 0
  · subst hn; rfl
  · rw [execDrw, if_neg hn, withRange_ok]
    simpa using h.resolve_left hn

theorem execDrw_raises (x y : Reg) (n : Nat) (s : State) (hn : n ≠ 0) (h : 0xFFF < s.i.toNat + n - 1) :
    execDrw x y n s = .next (s.raise .memoryOutOfRange (some (encode (.drw x y n)))
      (some (BitVec.ofNat 16 (max s.i.toNat 0x1000)))) := by
  rw [execDrw, if_neg hn, withRange_raises _ _ _ _ _ (by simpa using h)]
  rfl

/-- FX33 with its three bytes in range. -/
theorem execLdB_ok (x : Reg) (s : State) (h : s.i.toNat + 2 ≤ 0xFFF) :
    execLdB x s =
      .next (s.setMem (s.mem.writeBytes s.i.toNat (decimalDigits (s.getV x)))).advance :=
  withRange_ok _ _ _ _ _ (by simpa using h)

theorem execLdB_raises (x : Reg) (s : State) (h : 0xFFF < s.i.toNat + 2) :
    execLdB x s = .next (s.raise .memoryOutOfRange (some (encode (.ldB x)))
      (some (BitVec.ofNat 16 (max s.i.toNat 0x1000)))) :=
  withRange_raises _ _ _ _ _ (by simpa using h)

/-- FX55 with its x + 1 bytes in range. -/
theorem execLdStore_ok (x : Reg) (s : State) (h : s.i.toNat + x.val ≤ 0xFFF) :
    execLdStore x s = .next (s.setMem (s.mem.writeBytes s.i.toNat (s.regBlock x))).advance :=
  withRange_ok _ _ _ _ _ (by simpa using h)

theorem execLdStore_raises (x : Reg) (s : State) (h : 0xFFF < s.i.toNat + x.val) :
    execLdStore x s = .next (s.raise .memoryOutOfRange (some (encode (.ldStore x)))
      (some (BitVec.ofNat 16 (max s.i.toNat 0x1000)))) :=
  withRange_raises _ _ _ _ _ (by simpa using h)

/-- FX65 with its x + 1 bytes in range. -/
theorem execLdLoad_ok (x : Reg) (s : State) (h : s.i.toNat + x.val ≤ 0xFFF) :
    execLdLoad x s = .next (s.setRegBlock x (fun k => s.mem.read (s.effAddr k))).advance :=
  withRange_ok _ _ _ _ _ (by simpa using h)

theorem execLdLoad_raises (x : Reg) (s : State) (h : 0xFFF < s.i.toNat + x.val) :
    execLdLoad x s = .next (s.raise .memoryOutOfRange (some (encode (.ldLoad x)))
      (some (BitVec.ofNat 16 (max s.i.toNat 0x1000)))) :=
  withRange_raises _ _ _ _ _ (by simpa using h)

/-! ### The inversion of `exec` -/

/-- `i` completes in `s`, its own check passed, and leaves `t`. -/
inductive Completed (s : State) : Instr → State → Prop where
  | cls : Completed s .cls (s.setDisp Display.blank).advance
  | ret (h : 0 < s.sp.val) : Completed s .ret
      ((s.setSp ⟨s.sp.val - 1, by omega⟩).setPc (s.stack[s.sp.val - 1]'(by omega)))
  | jp (nnn) : Completed s (.jp nnn) (s.setPc (zext16 nnn))
  | call (nnn) (h : s.sp.val < 16) : Completed s (.call nnn) 
      (((s.setSlot ⟨s.sp.val, h⟩ (s.pc + 2)).setSp
        ⟨s.sp.val + 1, Nat.succ_lt_succ h⟩).setPc (zext16 nnn))
  | seImm (x kk) : Completed s (.seImm x kk) (s.skipIf (s.getV x == kk))
  | sneImm (x kk) : Completed s (.sneImm x kk) (s.skipIf (s.getV x != kk))
  | seReg (x y) : Completed s (.seReg x y) (s.skipIf (s.getV x == s.getV y))
  | ldImm (x kk) : Completed s (.ldImm x kk) (s.writeReg x kk)
  | addImm (x kk) : Completed s (.addImm x kk) (s.writeReg x (s.getV x + kk))
  | ldReg (x y) : Completed s (.ldReg x y) (s.writeReg x (s.getV y))
  | orReg (x y) : Completed s (.orReg x y) (s.writeReg x (s.getV x ||| s.getV y))
  | andReg (x y) : Completed s (.andReg x y) (s.writeReg x (s.getV x &&& s.getV y))
  | xorReg (x y) : Completed s (.xorReg x y) (s.writeReg x (s.getV x ^^^ s.getV y))
  | addReg (x y) : Completed s (.addReg x y)
      (s.writeWithFlag x (s.getV x + s.getV y) (carryFlag (s.getV x) (s.getV y)))
  | subReg (x y) : Completed s (.subReg x y)
      (s.writeWithFlag x (s.getV x - s.getV y) (noBorrowFlag (s.getV x) (s.getV y)))
  | shr (x) : Completed s (.shr x)
      (s.writeWithFlag x (s.getV x >>> 1) (shiftedOutRight (s.getV x)))
  | subnReg (x y) : Completed s (.subnReg x y)
      (s.writeWithFlag x (s.getV y - s.getV x) (noBorrowFlag (s.getV y) (s.getV x)))
  | shl (x) : Completed s (.shl x)
      (s.writeWithFlag x (s.getV x <<< 1) (shiftedOutLeft (s.getV x)))
  | sneReg (x y) : Completed s (.sneReg x y) (s.skipIf (s.getV x != s.getV y))
  | ldI (nnn) : Completed s (.ldI nnn) (s.setI (zext16 nnn)).advance
  | jpV0 (nnn) : Completed s (.jpV0 nnn) (s.setPc (zext16 (s.getV 0) + zext16 nnn))
  | rnd (x kk) : Completed s (.rnd x kk) (s.writeReg x (s.rnd &&& kk))
  | drw (x y n) (h : n = 0 ∨ s.i.toNat + n - 1 ≤ 0xFFF) : Completed s (.drw x y n)
      (s.drawSprite Config.edgeMode (s.getV x) (s.getV y) n)
  | skp (x) (h : (s.getV x).toNat < 16) : Completed s (.skp x)
      (s.skipIf (s.keys[(s.getV x).toNat]'h))
  | sknp (x) (h : (s.getV x).toNat < 16) : Completed s (.sknp x)
      (s.skipIf (!(s.keys[(s.getV x).toNat]'h)))
  | ldVxDT (x) : Completed s (.ldVxDT x) (s.setV x s.dt).advance
  | ldVxK (x) : Completed s (.ldVxK x) (s.setStatus (.awaitingKey x s.keys)).advance
  | ldDTVx (x) : Completed s (.ldDTVx x) (s.setDt (s.getV x)).advance
  | ldSTVx (x) : Completed s (.ldSTVx x) (s.setSt (s.getV x)).advance
  | addI (x) : Completed s (.addI x) (s.setI (s.i + zext16 (s.getV x))).advance
  | ldF (x) : Completed s (.ldF x) (s.setI (zext16 (s.getV x) * 5)).advance
  | ldB (x) (h : s.i.toNat + 2 ≤ 0xFFF) : Completed s (.ldB x)
      (s.setMem (s.mem.writeBytes s.i.toNat (decimalDigits (s.getV x)))).advance
  | ldStore (x) (h : s.i.toNat + x.val ≤ 0xFFF) : Completed s (.ldStore x)
      (s.setMem (s.mem.writeBytes s.i.toNat (s.regBlock x))).advance
  | ldLoad (x) (h : s.i.toNat + x.val ≤ 0xFFF) : Completed s (.ldLoad x)
      (s.setRegBlock x (fun k => s.mem.read (s.effAddr k))).advance

/-- `i`'s own check fails in `s`: it raises the error of kind `k` with the address `a`, if any
(60_exceptions.md R224). -/
inductive FailsCheck (s : State) : Instr → ErrorKind → Option Word → Prop where
  | call (nnn) (h : s.sp.val = 16) : FailsCheck s (.call nnn) .stackOverflow none
  | ret (h : s.sp.val = 0) : FailsCheck s .ret .stackUnderflow none
  | drw (x y n) (hn : n ≠ 0) (h : 0xFFF < s.i.toNat + n - 1) : FailsCheck s (.drw x y n)
      .memoryOutOfRange (some (BitVec.ofNat 16 (max s.i.toNat 0x1000)))
  | ldB (x) (h : 0xFFF < s.i.toNat + 2) : FailsCheck s (.ldB x)
      .memoryOutOfRange (some (BitVec.ofNat 16 (max s.i.toNat 0x1000)))
  | ldStore (x : Reg) (h : 0xFFF < s.i.toNat + x.val) : FailsCheck s (.ldStore x)
      .memoryOutOfRange (some (BitVec.ofNat 16 (max s.i.toNat 0x1000)))
  | ldLoad (x : Reg) (h : 0xFFF < s.i.toNat + x.val) : FailsCheck s (.ldLoad x)
      .memoryOutOfRange (some (BitVec.ofNat 16 (max s.i.toNat 0x1000)))
  | skp (x) (h : 15 < (s.getV x).toNat) : FailsCheck s (.skp x) .keyIndexOutOfRange none
  | sknp (x) (h : 15 < (s.getV x).toNat) : FailsCheck s (.sknp x) .keyIndexOutOfRange none

/-- A next state of `exec` is either that of the completed instruction or that of the error its own check
raises. -/
theorem exec_cases {i : Instr} {s t : State} (h : exec i s = .next t) :
    Completed s i t ∨ ∃ k a, FailsCheck s i k a ∧ t = s.raise k (some (encode i)) a := by
  cases i with
  | ret =>
    rcases Nat.eq_zero_or_pos s.sp.val with hs | hs
    · cases (execRet_raises s hs).symm.trans h
      exact .inr ⟨_, _, .ret hs, rfl⟩
    · cases (execRet_ok s hs).symm.trans h
      exact .inl (.ret hs)
  | call nnn =>
    by_cases hs : s.sp.val = 16
    · cases (execCall_raises nnn s hs).symm.trans h
      exact .inr ⟨_, _, .call nnn hs, rfl⟩
    · cases (execCall_ok nnn s (by omega)).symm.trans h
      exact .inl (.call nnn (by omega))
  | skp x =>
    by_cases hs : (s.getV x).toNat < 16
    · cases (execSkp_ok x s hs).symm.trans h
      exact .inl (.skp x hs)
    · cases (execSkp_raises x s (by omega)).symm.trans h
      exact .inr ⟨_, _, .skp x (by omega), rfl⟩
  | sknp x =>
    by_cases hs : (s.getV x).toNat < 16
    · cases (execSknp_ok x s hs).symm.trans h
      exact .inl (.sknp x hs)
    · cases (execSknp_raises x s (by omega)).symm.trans h
      exact .inr ⟨_, _, .sknp x (by omega), rfl⟩
  | drw x y n =>
    by_cases hs : n = 0 ∨ s.i.toNat + n - 1 ≤ 0xFFF
    · cases (execDrw_ok x y n s hs).symm.trans h
      exact .inl (.drw x y n hs)
    · cases (execDrw_raises x y n s (by omega) (by omega)).symm.trans h
      exact .inr ⟨_, _, .drw x y n (by omega) (by omega), rfl⟩
  | ldB x =>
    by_cases hs : s.i.toNat + 2 ≤ 0xFFF
    · cases (execLdB_ok x s hs).symm.trans h
      exact .inl (.ldB x hs)
    · cases (execLdB_raises x s (by omega)).symm.trans h
      exact .inr ⟨_, _, .ldB x (by omega), rfl⟩
  | ldStore x =>
    by_cases hs : s.i.toNat + x.val ≤ 0xFFF
    · cases (execLdStore_ok x s hs).symm.trans h
      exact .inl (.ldStore x hs)
    · cases (execLdStore_raises x s (by omega)).symm.trans h
      exact .inr ⟨_, _, .ldStore x (by omega), rfl⟩
  | ldLoad x =>
    by_cases hs : s.i.toNat + x.val ≤ 0xFFF
    · cases (execLdLoad_ok x s hs).symm.trans h
      exact .inl (.ldLoad x hs)
    · cases (execLdLoad_raises x s (by omega)).symm.trans h
      exact .inr ⟨_, _, .ldLoad x (by omega), rfl⟩
  | _ => cases h; exact .inl (by constructor)

end Sys2Proof.Machine
end

