-- ==== Sys2Proof/Laws/PerInstr.lean ====
section
/-! SUPPORT. Statements made for every instruction, one lemma per constructor. -/

namespace Sys2Proof.Laws.DecodeEncode

/-- Decoding the encoding of a well-formed instruction gives it back. -/
def Statement (i : Instr) : Prop := WellFormed i = true → decode (encode i) = .ok i

theorem cls : Statement .cls := by
  intro _; decide

theorem ret : Statement .ret := by
  intro _; decide

theorem jp (nnn : BitVec 12) : Statement (.jp nnn) := fun _ =>
  (decode_packA 0x1#4 nnn).trans (congrArg (fun v => Except.ok (Instr.jp v)) (fieldNNN_packA _ _))

theorem call (nnn : BitVec 12) : Statement (.call nnn) := fun _ =>
  (decode_packA 0x2#4 nnn).trans (congrArg (fun v => Except.ok (Instr.call v)) (fieldNNN_packA _ _))

theorem seImm (x : Reg) (kk : Byte) : Statement (.seImm x kk) := fun _ =>
  (decode_packXK 0x3#4 x kk).trans
    (congrArg₂ (fun v w => Except.ok (Instr.seImm v w)) (fieldX_packXK _ _ _) (fieldKK_packXK _ _ _))

theorem sneImm (x : Reg) (kk : Byte) : Statement (.sneImm x kk) := fun _ =>
  (decode_packXK 0x4#4 x kk).trans
    (congrArg₂ (fun v w => Except.ok (Instr.sneImm v w)) (fieldX_packXK _ _ _) (fieldKK_packXK _ _ _))

theorem seReg (x y : Reg) : Statement (.seReg x y) := fun _ =>
  (decode_packXYN 0x5#4 0x0#4 x y).trans ((if_pos (low_packXYN _ _ _ _)).trans
    (congrArg₂ (fun v w => Except.ok (Instr.seReg v w)) (fieldX_packXYN _ _ _ _) (fieldY_packXYN _ _ _ _)))

theorem ldImm (x : Reg) (kk : Byte) : Statement (.ldImm x kk) := fun _ =>
  (decode_packXK 0x6#4 x kk).trans
    (congrArg₂ (fun v w => Except.ok (Instr.ldImm v w)) (fieldX_packXK _ _ _) (fieldKK_packXK _ _ _))

theorem addImm (x : Reg) (kk : Byte) : Statement (.addImm x kk) := fun _ =>
  (decode_packXK 0x7#4 x kk).trans
    (congrArg₂ (fun v w => Except.ok (Instr.addImm v w)) (fieldX_packXK _ _ _) (fieldKK_packXK _ _ _))

theorem ldReg (x y : Reg) : Statement (.ldReg x y) := fun _ =>
  (decode_family8 0x0#4 x y).trans
    (congrArg₂ (fun v w => Except.ok (Instr.ldReg v w)) (fieldX_packXYN _ _ _ _) (fieldY_packXYN _ _ _ _))

theorem orReg (x y : Reg) : Statement (.orReg x y) := fun _ =>
  (decode_family8 0x1#4 x y).trans
    (congrArg₂ (fun v w => Except.ok (Instr.orReg v w)) (fieldX_packXYN _ _ _ _) (fieldY_packXYN _ _ _ _))

theorem andReg (x y : Reg) : Statement (.andReg x y) := fun _ =>
  (decode_family8 0x2#4 x y).trans
    (congrArg₂ (fun v w => Except.ok (Instr.andReg v w)) (fieldX_packXYN _ _ _ _) (fieldY_packXYN _ _ _ _))

theorem xorReg (x y : Reg) : Statement (.xorReg x y) := fun _ =>
  (decode_family8 0x3#4 x y).trans
    (congrArg₂ (fun v w => Except.ok (Instr.xorReg v w)) (fieldX_packXYN _ _ _ _) (fieldY_packXYN _ _ _ _))

theorem addReg (x y : Reg) : Statement (.addReg x y) := fun _ =>
  (decode_family8 0x4#4 x y).trans
    (congrArg₂ (fun v w => Except.ok (Instr.addReg v w)) (fieldX_packXYN _ _ _ _) (fieldY_packXYN _ _ _ _))

theorem subReg (x y : Reg) : Statement (.subReg x y) := fun _ =>
  (decode_family8 0x5#4 x y).trans
    (congrArg₂ (fun v w => Except.ok (Instr.subReg v w)) (fieldX_packXYN _ _ _ _) (fieldY_packXYN _ _ _ _))

theorem shr (x : Reg) : Statement (.shr x) := fun _ =>
  (decode_family8 0x6#4 x 0).trans (congrArg (fun v => Except.ok (Instr.shr v)) (fieldX_packXYN _ _ _ _))

theorem subnReg (x y : Reg) : Statement (.subnReg x y) := fun _ =>
  (decode_family8 0x7#4 x y).trans
    (congrArg₂ (fun v w => Except.ok (Instr.subnReg v w)) (fieldX_packXYN _ _ _ _) (fieldY_packXYN _ _ _ _))

theorem shl (x : Reg) : Statement (.shl x) := fun _ =>
  (decode_family8 0xE#4 x 0).trans (congrArg (fun v => Except.ok (Instr.shl v)) (fieldX_packXYN _ _ _ _))

theorem sneReg (x y : Reg) : Statement (.sneReg x y) := fun _ =>
  (decode_packXYN 0x9#4 0x0#4 x y).trans ((if_pos (low_packXYN _ _ _ _)).trans
    (congrArg₂ (fun v w => Except.ok (Instr.sneReg v w)) (fieldX_packXYN _ _ _ _) (fieldY_packXYN _ _ _ _)))

theorem ldI (nnn : BitVec 12) : Statement (.ldI nnn) := fun _ =>
  (decode_packA 0xA#4 nnn).trans (congrArg (fun v => Except.ok (Instr.ldI v)) (fieldNNN_packA _ _))

theorem jpV0 (nnn : BitVec 12) : Statement (.jpV0 nnn) := fun _ =>
  (decode_packA 0xB#4 nnn).trans (congrArg (fun v => Except.ok (Instr.jpV0 v)) (fieldNNN_packA _ _))

theorem rnd (x : Reg) (kk : Byte) : Statement (.rnd x kk) := fun _ =>
  (decode_packXK 0xC#4 x kk).trans
    (congrArg₂ (fun v w => Except.ok (Instr.rnd v w)) (fieldX_packXK _ _ _) (fieldKK_packXK _ _ _))

theorem drw (x y : Reg) (n : Nat) : Statement (.drw x y n) := by
  intro h
  have hn : n ≤ 15 := of_decide_eq_true h
  have h16 : n % 16 = n := Nat.mod_eq_of_lt (by omega)
  refine (decode_packXYN 0xD#4 (BitVec.ofNat 4 n) x y).trans ?_
  show Except.ok (Instr.drw (fieldX _) (fieldY _) (nibble _ 0).val) = _
  rw [fieldX_packXYN, fieldY_packXYN, low_packXYN, BitVec.toNat_ofNat]
  exact congrArg (fun m => Except.ok (Instr.drw x y m)) h16

theorem skp (x : Reg) : Statement (.skp x) := fun _ =>
  (decode_familyE x 0x9E#8).trans (congrArg (fun v => Except.ok (Instr.skp v)) (fieldX_packXK _ _ _))

theorem sknp (x : Reg) : Statement (.sknp x) := fun _ =>
  (decode_familyE x 0xA1#8).trans (congrArg (fun v => Except.ok (Instr.sknp v)) (fieldX_packXK _ _ _))

theorem ldVxDT (x : Reg) : Statement (.ldVxDT x) := fun _ =>
  (decode_familyF x 0x07#8).trans (congrArg (fun v => Except.ok (Instr.ldVxDT v)) (fieldX_packXK _ _ _))

theorem ldVxK (x : Reg) : Statement (.ldVxK x) := fun _ =>
  (decode_familyF x 0x0A#8).trans (congrArg (fun v => Except.ok (Instr.ldVxK v)) (fieldX_packXK _ _ _))

theorem ldDTVx (x : Reg) : Statement (.ldDTVx x) := fun _ =>
  (decode_familyF x 0x15#8).trans (congrArg (fun v => Except.ok (Instr.ldDTVx v)) (fieldX_packXK _ _ _))

theorem ldSTVx (x : Reg) : Statement (.ldSTVx x) := fun _ =>
  (decode_familyF x 0x18#8).trans (congrArg (fun v => Except.ok (Instr.ldSTVx v)) (fieldX_packXK _ _ _))

theorem addI (x : Reg) : Statement (.addI x) := fun _ =>
  (decode_familyF x 0x1E#8).trans (congrArg (fun v => Except.ok (Instr.addI v)) (fieldX_packXK _ _ _))

theorem ldF (x : Reg) : Statement (.ldF x) := fun _ =>
  (decode_familyF x 0x29#8).trans (congrArg (fun v => Except.ok (Instr.ldF v)) (fieldX_packXK _ _ _))

theorem ldB (x : Reg) : Statement (.ldB x) := fun _ =>
  (decode_familyF x 0x33#8).trans (congrArg (fun v => Except.ok (Instr.ldB v)) (fieldX_packXK _ _ _))

theorem ldStore (x : Reg) : Statement (.ldStore x) := fun _ =>
  (decode_familyF x 0x55#8).trans (congrArg (fun v => Except.ok (Instr.ldStore v)) (fieldX_packXK _ _ _))

theorem ldLoad (x : Reg) : Statement (.ldLoad x) := fun _ =>
  (decode_familyF x 0x65#8).trans (congrArg (fun v => Except.ok (Instr.ldLoad v)) (fieldX_packXK _ _ _))

end Sys2Proof.Laws.DecodeEncode
end

