-- ==== Sys2Proof/Laws/Step.lean ====
section
/-! SUPPORT. What one transition can do: the inversion lemmas of the step, cited instead of unfolding it. -/

namespace Sys2Proof.Machine

/-! ### The host's operations -/

/-- The host always has a next operation. -/
theorem TakesUp.next (s : State) : TakesUp s s.nextHostOp.1 s.nextHostOp.2 := by
  cases hh : s.host with
  | nil => exact .inr ⟨hh, by simp only [State.nextHostOp, hh], by simp only [State.nextHostOp, hh]⟩
  | cons op later => exact .inl ⟨later, by simp only [State.nextHostOp, hh], by simp only [State.nextHostOp, hh]⟩

/-- Which operation is next, and the state it leaves to be served, are determined. -/
theorem TakesUp.nextHostOp_eq {s u : State} {op : HostOp} (h : TakesUp s op u) :
    s.nextHostOp = (op, u) := by
  rcases h with ⟨later, hh, rfl⟩ | ⟨hh, rfl, rfl⟩ <;> simp only [State.nextHostOp, hh]

/-- Only the list of operations and the counter move when an operation is taken up. -/
theorem TakesUp.core {s u : State} {op : HostOp} (h : TakesUp s op u) :
    ∃ later n, u = { s with host := later, opsDrawn := n } := by
  rcases h with ⟨later, -, rfl⟩ | ⟨-, -, rfl⟩ <;> exact ⟨_, _, rfl⟩

/-- A transition in which the host ticks the timers. -/
theorem TakesUp.tick_eq {s u : State} (h : TakesUp s .tickTimers u) : step s = .next u.tickTimers := by
  rw [step, h.nextHostOp_eq]

/-- A transition in which the host initializes the core. -/
theorem TakesUp.init_eq {s u : State} {program : List Byte} (h : TakesUp s (.initProgram program) u) :
    step s = .next (u.initProgram program) := by
  rw [step, h.nextHostOp_eq]

/-- The core state is untouched when the step's inputs are taken up. -/
theorem TakesStep.core {s u : State} (h : TakesStep s u) :
    u.mem = s.mem ∧ u.v = s.v ∧ u.i = s.i ∧ u.pc = s.pc ∧ u.sp = s.sp ∧ u.stack = s.stack ∧
      u.dt = s.dt ∧ u.st = s.st ∧ u.disp = s.disp ∧ u.status = s.status := by
  obtain ⟨ks, b, w, hw, rfl⟩ := h
  obtain ⟨later, n, rfl⟩ := hw.core
  simp

/-- A transition in which the host calls `step` is the core's step on the inputs taken up. -/
theorem TakesStep.step_eq {s u : State} (h : TakesStep s u) : step s = coreStep u := by
  obtain ⟨ks, b, w, hw, rfl⟩ := h
  rw [step, hw.nextHostOp_eq]
  rfl

/-- Every transition serves one host operation. -/
theorem step_cases (s : State) :
    (∃ u, TakesStep s u ∧ step s = coreStep u) ∨
    (∃ u, TakesUp s .tickTimers u ∧ step s = .next u.tickTimers) ∨
    (∃ program u, TakesUp s (.initProgram program) u ∧ step s = .next (u.initProgram program)) := by
  have h := TakesUp.next s
  generalize s.nextHostOp.1 = op at h
  generalize s.nextHostOp.2 = u at h
  cases op with
  | step ks b =>
    have h' : TakesStep s _ := ⟨ks, b, u, h, rfl⟩
    exact .inl ⟨_, h', h'.step_eq⟩
  | tickTimers => exact .inr (.inl ⟨u, h, h.tick_eq⟩)
  | initProgram program => exact .inr (.inr ⟨program, u, h, h.init_eq⟩)

/-! ### The core's step -/

theorem coreStep_halted (u : State) (e : ErrorRecord) (h : u.status = .halted e) :
    coreStep u = .next u := by
  simp only [coreStep, h]

theorem coreStep_awaiting (u : State) (x : Reg) (latch : Keys) (h : u.status = .awaitingKey x latch) :
    coreStep u = .next (u.serviceKeyWait x latch) := by
  simp only [coreStep, h]

theorem coreStep_running (u : State) (h : u.status = .running) :
    coreStep u = fetchDecodeExecute u := by
  simp only [coreStep, h]

/-- The decoder rejects a word only as unknown. -/
theorem decode_error (op : Word) (e : DecodeError) (h : decode op = .error e) :
    e = .unknownOpcode op := by
  unfold decode decodeFamily decodeFamily8 decodeFamilyE decodeFamilyF at h
  split at h <;> (try split at h) <;> (try split at h) <;> (cases h; try rfl)

/-- The Running path: a fetch error, an unknown opcode, or the execution of the decoded instruction. -/
theorem fetchDecodeExecute_cases (u : State) :
    (∃ k a, u.fetch = .error (k, a) ∧ fetchDecodeExecute u = .next (u.raise k none a)) ∨
    (∃ op, u.fetch = .ok op ∧ decode op = .error (.unknownOpcode op) ∧
      fetchDecodeExecute u = .next (u.raise .unknownOpcode (some op) none)) ∨
    (∃ op i, u.fetch = .ok op ∧ decode op = .ok i ∧ fetchDecodeExecute u = exec i u) := by
  cases hf : u.fetch with
  | error e => exact .inl ⟨e.1, e.2, rfl, by simp only [fetchDecodeExecute, hf]⟩
  | ok op =>
    cases hd : decode op with
    | error e =>
      refine .inr (.inl ⟨op, rfl, ?_, by simp only [fetchDecodeExecute, hf, hd]⟩)
      rw [hd, decode_error op e hd]
    | ok i => exact .inr (.inr ⟨op, i, rfl, hd, by simp only [fetchDecodeExecute, hf, hd]⟩)

/-! ### Invariants -/

/-- What keeps an invariant along every transition: one premise for each thing a transition can do. -/
theorem step_keeps (Inv : State → Prop)
    (takenUp : ∀ s op u, TakesUp s op u → Inv s → Inv u)
    (inputs : ∀ (s : State) ks b, Inv s → Inv { s with keys := ks, rnd := b })
    (keyWait : ∀ u x latch, u.status = .awaitingKey x latch → Inv u → Inv (u.serviceKeyWait x latch))
    (fetchError : ∀ u k a, u.fetch = .error (k, a) → Inv u → Inv (u.raise k none a))
    (unknown : ∀ u op, u.fetch = .ok op → decode op = .error (.unknownOpcode op) → Inv u →
      Inv (u.raise .unknownOpcode (some op) none))
    (executes : ∀ u i t op, u.status = .running → u.fetch = .ok op → decode op = .ok i →
      exec i u = .next t → Inv u → Inv t)
    (tick : ∀ u : State, Inv u → Inv u.tickTimers)
    (init : ∀ (u : State) program, Inv u → Inv (u.initProgram program))
    (s t : State) (hs : Inv s) (h : step s = .next t) : Inv t := by
  rcases step_cases s with ⟨u, hu, he⟩ | ⟨u, hu, he⟩ | ⟨p, u, hu, he⟩
  · obtain ⟨ks, b, w, hw, rfl⟩ := hu
    have hu' := inputs w ks b (takenUp s _ w hw hs)
    generalize ({ w with keys := ks, rnd := b } : State) = u at *
    rw [he] at h
    cases hc : u.status with
    | halted e => rw [coreStep_halted u e hc] at h; cases h; exact hu'
    | awaitingKey x latch =>
      rw [coreStep_awaiting u x latch hc] at h; cases h; exact keyWait u x latch hc hu'
    | running =>
      rw [coreStep_running u hc] at h
      rcases fetchDecodeExecute_cases u with ⟨k, a, hf, he⟩ | ⟨op, hf, hd, he⟩ | ⟨op, i, hf, hd, he⟩
      · rw [he] at h; cases h; exact fetchError u k a hf hu'
      · rw [he] at h; cases h; exact unknown u op hf hd hu'
      · rw [he] at h; exact executes u i t op hc hf hd h hu'
  · rw [he] at h; cases h; exact tick u (takenUp s _ u hu hs)
  · rw [he] at h; cases h; exact init u p (takenUp s _ u hu hs)

end Sys2Proof.Machine
end

