-- ==== Sys2Proof/Tests/Slice0.lean ====
section
/-! SUPPORT. The model's own tests. Every expected result is taken from the spec: the encodings of
30_encoding.md R80 and the vectors of 95_test_vectors.md, named by their ids. The witnesses at the end
show that the hypotheses of each obligation can be met. -/

namespace Sys2Proof.Tests
open Sys2Proof Sys2Proof.Machine

/-! ### Small states -/

/-- What a next state shows. -/
def after {α : Type} (r : Result) (f : State → α) : Option α :=
  match r with
  | .next t => some (f t)
  | .fault _ => none
  | .refused _ => none

/-- The reset state with these register values, and I. -/
def regs (rs : List (Reg × Byte)) (i : Word := 0) : State :=
  rs.foldl (fun s p => s.setV p.1 p.2) (State.reset.setI i)

/-- The state with these bytes from an address on. -/
def withBytes (s : State) (a : Nat) (bs : List Byte) : State := s.setMem (s.mem.writeBytes a bs)

/-- The state with one key held. -/
def held (k : Nat) (h : k < 16 := by omega) : Keys := (Vector.replicate 16 false).set k true h

/-- One step that fetches this opcode. -/
def run (s : State) (w : Nat) : Result := step (s.withFetchWord 16 w)

/-- V1, VF and PC. -/
def v1f (t : State) : Byte × Byte × Word := (t.getV 1, t.getV vf, t.pc)

/-- The record of the error that halted the core at 0x200. -/
def haltedBy (k : ErrorKind) (op : Word) (addr : Option Word) : Status :=
  .halted ⟨k, 0x200, some op, addr⟩

/-! ### WellFormed -/

theorem test_wellFormed_bounds_the_rows :
    WellFormed (.drw 0 0 16) = false ∧ WellFormed (.drw 15 15 15) = true := by decide

/-! ### Decoding: words written out from the encoding lines of R80 and of each instruction's rule -/

theorem test_decode_system :
    decode 0b0000000011100000#16 = .ok .cls ∧
    decode 0b0000000011101110#16 = .ok .ret ∧
    decode 0b0001101010111100#16 = .ok (.jp 0xABC) ∧
    decode 0b0010101010111100#16 = .ok (.call 0xABC) := by decide

theorem test_decode_skips :
    decode 0b0011101011000011#16 = .ok (.seImm 0xA 0xC3) ∧
    decode 0b0100101011000011#16 = .ok (.sneImm 0xA 0xC3) ∧
    decode 0b0101101001100000#16 = .ok (.seReg 0xA 0x6) ∧
    decode 0b1001101001100000#16 = .ok (.sneReg 0xA 0x6) := by decide

theorem test_decode_immediate :
    decode 0b0110101011000011#16 = .ok (.ldImm 0xA 0xC3) ∧
    decode 0b0111101011000011#16 = .ok (.addImm 0xA 0xC3) ∧
    decode 0b1100101011000011#16 = .ok (.rnd 0xA 0xC3) := by decide

theorem test_decode_family8 :
    decode 0b1000101001100000#16 = .ok (.ldReg 0xA 0x6) ∧
    decode 0b1000101001100001#16 = .ok (.orReg 0xA 0x6) ∧
    decode 0b1000101001100010#16 = .ok (.andReg 0xA 0x6) ∧
    decode 0b1000101001100011#16 = .ok (.xorReg 0xA 0x6) ∧
    decode 0b1000101001100100#16 = .ok (.addReg 0xA 0x6) ∧
    decode 0b1000101001100101#16 = .ok (.subReg 0xA 0x6) ∧
    decode 0b1000101001100110#16 = .ok (.shr 0xA) ∧
    decode 0b1000101001100111#16 = .ok (.subnReg 0xA 0x6) ∧
    decode 0b1000101001101110#16 = .ok (.shl 0xA) := by decide

theorem test_decode_address :
    decode 0b1010101010111100#16 = .ok (.ldI 0xABC) ∧
    decode 0b1011101010111100#16 = .ok (.jpV0 0xABC) ∧
    decode 0b1101101001101100#16 = .ok (.drw 0xA 0x6 12) := by decide

theorem test_decode_keys_and_timers :
    decode 0b1110101010011110#16 = .ok (.skp 0xA) ∧
    decode 0b1110101010100001#16 = .ok (.sknp 0xA) ∧
    decode 0b1111101000000111#16 = .ok (.ldVxDT 0xA) ∧
    decode 0b1111101000001010#16 = .ok (.ldVxK 0xA) ∧
    decode 0b1111101000010101#16 = .ok (.ldDTVx 0xA) ∧
    decode 0b1111101000011000#16 = .ok (.ldSTVx 0xA) := by decide

theorem test_decode_index :
    decode 0b1111101000011110#16 = .ok (.addI 0xA) ∧
    decode 0b1111101000101001#16 = .ok (.ldF 0xA) ∧
    decode 0b1111101000110011#16 = .ok (.ldB 0xA) ∧
    decode 0b1111101001010101#16 = .ok (.ldStore 0xA) ∧
    decode 0b1111101001100101#16 = .ok (.ldLoad 0xA) := by decide

/-- R78, and VC17, VC20, VA31, VK7, VK21, VS5, VS6, VS7. -/
theorem test_illegal_words :
    [0x0000#16, 0x0123#16, 0x00E1#16, 0x5121#16, 0x912F#16, 0x8008#16, 0x800F#16, 0xE59F#16, 0xE000#16,
      0xF008#16, 0xF0FF#16].all (fun w => decide (decode w = .error (.unknownOpcode w))) = true := by
  decide

/-- An instruction is two bytes, high byte first (R70, 20_memory.md R53). -/
theorem test_decodeBytes :
    decodeBytes [0x71#8, 0x10#8, 0x99#8] = .ok (.addImm 1 0x10, [0x99#8]) ∧
    decodeBytes [0x71#8] = .error .truncated ∧
    decodeTableWord 16 0x7110 = some (.addImm 1 0x10) ∧ decodeTableWord 16 0x5121 = none := by decide

/-! ### Control transfer and skips (95_test_vectors.md 2.1) -/

/-- VC1, VC3. -/
theorem test_jp : after (run (regs []) 0x1234) (·.pc) = some 0x234 ∧
    after (run (regs []) 0x1201) (·.pc) = some 0x201 := by decide

/-- VC4, VC5. -/
theorem test_call :
    after (run (regs []) 0x2300) (fun t => (t.stack[0], t.sp, t.pc)) = some (0x202, 1, 0x300) ∧
    after (run ((regs []).setSp 15) 0x2300) (fun t => (t.stack[15], t.sp, t.pc)) =
      some (0x202, 16, 0x300) := by decide

/-- VC6. -/
theorem test_call_full : after (run ((regs []).setSp 16) 0x2300) (fun t => (t.status, t.sp, t.pc)) =
    some (haltedBy .stackOverflow 0x2300 none, 16, 0x200) := by decide

/-- VC7, VC8. -/
theorem test_ret :
    after (run (((regs []).setSp 1).setSlot 0 0x208) 0x00EE) (fun t => (t.stack[0], t.sp, t.pc)) =
      some (0x208, 0, 0x208) ∧
    after (run (regs []) 0x00EE) (·.status) = some (haltedBy .stackUnderflow 0x00EE none) := by decide

/-- VC10 to VC13. -/
theorem test_skip_immediate :
    after (run (regs [(3, 0x42)]) 0x3342) (·.pc) = some 0x204 ∧
    after (run (regs [(3, 0x41)]) 0x3342) (·.pc) = some 0x202 ∧
    after (run (regs [(3, 0x41)]) 0x4342) (·.pc) = some 0x204 ∧
    after (run (regs [(3, 0x42)]) 0x4342) (·.pc) = some 0x202 := by decide

/-- VC14, VC15, VC18, VC19. -/
theorem test_skip_register :
    after (run (regs [(1, 7), (2, 7)]) 0x5120) (·.pc) = some 0x204 ∧
    after (run (regs [(1, 7), (2, 8)]) 0x5120) (·.pc) = some 0x202 ∧
    after (run (regs [(1, 1), (2, 2)]) 0x9120) (·.pc) = some 0x204 ∧
    after (run (regs [(1, 2), (2, 2)]) 0x9120) (·.pc) = some 0x202 := by decide

/-- VC22, VC24. -/
theorem test_jpV0 : after (run (regs [(0, 0xFF)]) 0xBFFF) (·.pc) = some 0x10FE ∧
    after (run (regs [(5, 0x77)]) 0xB500) (·.pc) = some 0x500 := by decide

/-! ### Loads and arithmetic (95_test_vectors.md 2.2) -/

/-- VA1, VA3, VA4, VA5. -/
theorem test_loads_and_immediate_add :
    after (run (regs []) 0x6A2B) (fun t => (t.getV 0xA, t.pc)) = some (0x2B, 0x202) ∧
    after (run (regs [(1, 0xFF)]) 0x7110) v1f = some (0x0F, 0, 0x202) ∧
    after (run (regs [(vf, 0xFF)]) 0x7F01) (·.getV vf) = some 0 ∧
    after (run (regs [(2, 9)]) 0x8120) v1f = some (9, 0, 0x202) := by decide

/-- VA6, VA7, VA8, VA9. -/
theorem test_logic :
    after (run (regs [(1, 0x0F), (2, 0xF0), (vf, 0x55)]) 0x8121) v1f = some (0xFF, 0x55, 0x202) ∧
    after (run (regs [(1, 0x3C), (2, 0x0F)]) 0x8122) v1f = some (0x0C, 0, 0x202) ∧
    after (run (regs [(1, 0x3C), (2, 0x0F)]) 0x8123) v1f = some (0x33, 0, 0x202) ∧
    after (run (regs [(vf, 0xAA), (1, 0x0F)]) 0x8F13) (·.getV vf) = some 0xA5 := by decide

/-- VA10, VA11, VA12. -/
theorem test_add :
    after (run (regs [(1, 0xF0), (2, 0x20)]) 0x8124) v1f = some (0x10, 1, 0x202) ∧
    after (run (regs [(1, 0x7F), (2, 0x80)]) 0x8124) v1f = some (0xFF, 0, 0x202) ∧
    after (run (regs [(1, 0x80), (2, 0x80)]) 0x8124) v1f = some (0, 1, 0x202) := by decide

/-- VA14, VA15: VF as the destination and as the source. -/
theorem test_add_vf :
    after (run (regs [(vf, 0x10), (1, 0xF0)]) 0x8F14) (·.getV vf) = some 1 ∧
    after (run (regs [(1, 1), (vf, 0xFF)]) 0x81F4) v1f = some (0, 1, 0x202) := by decide

/-- VA16, VA17, VA19. -/
theorem test_sub :
    after (run (regs [(1, 5), (2, 7)]) 0x8125) v1f = some (0xFE, 0, 0x202) ∧
    after (run (regs [(1, 5), (2, 5)]) 0x8125) v1f = some (0, 1, 0x202) ∧
    after (run (regs [(vf, 9), (2, 3)]) 0x8F25) (·.getV vf) = some 1 := by decide

/-- VA24, VA25, VA27. -/
theorem test_subn :
    after (run (regs [(1, 7), (2, 5)]) 0x8127) v1f = some (0xFE, 0, 0x202) ∧
    after (run (regs [(1, 5), (2, 7)]) 0x8127) v1f = some (2, 1, 0x202) ∧
    after (run (regs [(vf, 7), (1, 5)]) 0x8F17) (·.getV vf) = some 0 := by decide

/-- VA20, VA21, VA22. -/
theorem test_shr :
    after (run (regs [(1, 5)]) 0x8106) v1f = some (2, 1, 0x202) ∧
    after (run (regs [(1, 0x80), (2, 0xFF)]) 0x8126) v1f = some (0x40, 0, 0x202) ∧
    after (run (regs [(vf, 3)]) 0x8F16) (·.getV vf) = some 1 := by decide

/-- VA28, VA29, VA30. -/
theorem test_shl :
    after (run (regs [(1, 0x81)]) 0x810E) v1f = some (2, 1, 0x202) ∧
    after (run (regs [(1, 0x7F)]) 0x810E) v1f = some (0xFE, 0, 0x202) ∧
    after (run (regs [(vf, 0x80)]) 0x8FFE) (·.getV vf) = some 1 := by decide

/-- VA32, VA33. -/
theorem test_rnd :
    after (run ((regs []).setInputs State.reset.keys 0xA7) 0xC30F) (·.getV 3) = some 7 ∧
    after (run ((regs [(3, 9)]).setInputs State.reset.keys 0xA7) 0xC300) (·.getV 3) = some 0 := by decide

/-! ### Index register and memory (95_test_vectors.md 2.3) -/

/-- VM1, VM3, VM4, VM8. -/
theorem test_index :
    after (run (regs [] 0xFFFF) 0xA2F0) (·.i) = some 0x2F0 ∧
    after (run (regs [(2, 1)] 0xFFFF) 0xF21E) (fun t => (t.i, t.getV vf)) = some (0, 0) ∧
    after (run (regs [(2, 1)] 0x0FFF) 0xF21E) (·.i) = some 0x1000 ∧
    after (run (regs [(4, 0xFF)]) 0xF429) (·.i) = some 0x4FB := by decide

/-- VM9, VM13. -/
theorem test_digits :
    after (run (regs [(0xA, 0xAE)] 0x300) 0xFA33)
      (fun t => (t.mem.read 0x300, t.mem.read 0x301, t.mem.read 0x302, t.i)) =
      some (1, 7, 4, 0x300) ∧
    after (run (regs [(0xA, 0xAE)] 0xFFD) 0xFA33) (fun t => (t.mem.read 0xFFD, t.mem.read 0xFFF)) =
      some (1, 4) := by decide

/-- VM14, VM15. -/
theorem test_digits_out_of_range :
    after (run (regs [(0xA, 0xAE)] 0xFFE) 0xFA33) (fun t => (t.status, t.mem.read 0xFFE)) =
      some (haltedBy .memoryOutOfRange 0xFA33 (some 0x1000), 0) ∧
    after (run (regs [] 0x1234) 0xFA33) (·.status) =
      some (haltedBy .memoryOutOfRange 0xFA33 (some 0x1234)) := by decide

/-- VM16, VM19. -/
theorem test_store :
    after (run (regs [(0, 1), (1, 2), (2, 3)] 0x300) 0xF155)
      (fun t => (t.mem.read 0x300, t.mem.read 0x301, t.mem.read 0x302, t.i)) =
      some (1, 2, 0, 0x300) ∧
    after (run (regs [(0, 7)] 0xFFF) 0xF155) (fun t => (t.status, t.mem.read 0xFFF)) =
      some (haltedBy .memoryOutOfRange 0xF155 (some 0x1000), 0) := by decide

/-- VM20, VM23. -/
theorem test_load :
    after (run (withBytes (regs [(4, 0x55)] 0x300) 0x300 [4, 3, 10, 100, 123]) 0xF365)
      (fun t => (t.getV 0, t.getV 1, t.getV 2, t.getV 3, t.getV 4, t.i)) =
      some (4, 3, 10, 100, 0x55, 0x300) ∧
    after (run (regs [] 0xFF8) 0xFF65) (·.status) =
      some (haltedBy .memoryOutOfRange 0xFF65 (some 0x1000)) := by decide

/-- VM24: the store overwrites the instruction itself. -/
theorem test_self_modifying :
    after (run (regs [(0, 0x12)] 0x200) 0xF055) (fun t => (t.mem.read 0x200, t.mem.read 0x201, t.pc)) =
      some (0x12, 0x55, 0x202) := by decide

/-! ### Display (95_test_vectors.md 2.4) -/

/-- Glyph 7's rows at 0x300, I there, to be drawn at (5, 3). -/
def glyph7 : State :=
  withBytes (regs [(0, 5), (1, 3)] 0x300) 0x300 [0xF0, 0x10, 0x20, 0x40, 0x40]

/-- A display with the listed cells on. -/
def lit (ps : List Pixel) : Display := (Display.blank.xorPixels ps).1

/-- The eight cells of program P3. -/
def p3 : Display := lit [(5, 3), (6, 3), (7, 3), (8, 3), (8, 4), (7, 5), (6, 6), (6, 7)]

/-- W4. -/
theorem test_cls :
    after (run ((regs [(vf, 5)]).setDisp p3) 0x00E0) (fun t => (t.disp, t.getV vf, t.pc)) =
      some (Display.blank, 5, 0x202) := by decide

/-- P3: the same cells in every EDGE_MODE. -/
theorem test_draw (m : EdgeMode) :
    (glyph7.drawSprite m 5 3 5).disp = p3 ∧ (glyph7.drawSprite m 5 3 5).getV vf = 0 ∧
      (glyph7.drawSprite m 5 3 5).pc = 0x202 := by
  cases m <;> decide

/-- W6. -/
theorem test_draw_twice (m : EdgeMode) :
    ((glyph7.setDisp p3).drawSprite m 5 3 5).disp = Display.blank ∧
      ((glyph7.setDisp p3).drawSprite m 5 3 5).getV vf = 1 := by
  cases m <;> decide

/-- VE1 to VE9: the ring's corners at (62, 30), and its first cell at (66, 0) and (0, 33). -/
theorem test_edges :
    place .wrap 62 30 3 4 = some (1, 2) ∧ place .clip 62 30 1 1 = some (63, 31) ∧
    place .clip 62 30 2 0 = none ∧ place .wrapStartClip 62 30 1 0 = some (63, 30) ∧
    place .wrapStartClip 62 30 0 2 = none ∧ place .wrap 66 0 0 0 = some (2, 0) ∧
    place .clip 66 0 0 0 = none ∧ place .wrapStartClip 66 0 0 0 = some (2, 0) ∧
    place .wrap 0 33 0 0 = some (0, 1) ∧ place .clip 0 33 0 0 = none ∧
    place .wrapStartClip 0 33 0 0 = some (0, 1) := by decide

/-- VD5 with VD4's I, and VD6. -/
theorem test_draw_bounds :
    after (run (regs [(vf, 1)] 0xFFFF) 0xD010) (fun t => (t.disp, t.getV vf, t.status, t.pc)) =
      some (Display.blank, 0, .running, 0x202) ∧
    after (run (regs [] 0xFFC) 0xD015) (·.status) =
      some (haltedBy .memoryOutOfRange 0xD015 (some 0x1000)) := by
  constructor
  · rfl
  · decide

/-! ### Keys and timers (95_test_vectors.md 2.5) -/

/-- VK1 to VK4. -/
theorem test_key_skips :
    after (run ((regs [(5, 0xA)]).setInputs (held 0xA) 0) 0xE59E) (·.pc) = some 0x204 ∧
    after (run (regs [(5, 0xA)]) 0xE59E) (·.pc) = some 0x202 ∧
    after (run (regs [(5, 0xA)]) 0xE5A1) (·.pc) = some 0x204 ∧
    after (run ((regs [(5, 0xA)]).setInputs (held 0xA) 0) 0xE5A1) (·.pc) = some 0x202 := by decide

/-- VK5, VK6. -/
theorem test_key_skips_out_of_range :
    after (run (regs [(5, 0x10)]) 0xE59E) (·.status) =
      some (haltedBy .keyIndexOutOfRange 0xE59E none) ∧
    after (run (regs [(5, 0xFF)]) 0xE5A1) (·.status) =
      some (haltedBy .keyIndexOutOfRange 0xE5A1 none) := by decide

/-- VK8, VK9, VK10. -/
theorem test_timers :
    after (run ((regs []).setDt 0x3C) 0xF307) (fun t => (t.getV 3, t.dt)) = some (0x3C, 0x3C) ∧
    after (run (regs [(1, 60)]) 0xF115) (fun t => (t.dt, t.st)) = some (60, 0) ∧
    after (run (regs [(1, 10)]) 0xF118) (fun t => (t.dt, t.st)) = some (0, 10) := by decide

/-- VK11, VK15. -/
theorem test_wait_begins :
    after (run (regs []) 0xF20A) (fun t => (t.status, t.pc)) =
      some (.awaitingKey 2 State.reset.keys, 0x202) ∧
    after (run ((regs []).setInputs (held 3) 0) 0xF20A) (·.status) =
      some (.awaitingKey 2 (held 3)) := by decide

/-- A core waiting for a key for V2, and a step with these keys. -/
def wait (latch keys : Keys) : Result :=
  step { State.reset with status := .awaitingKey 2 latch, host := [.step keys 0] }

/-- VK14, VK16, VK17, VK18. -/
theorem test_wait_service :
    after (wait State.reset.keys ((held 5).set 2 true)) (fun t => (t.getV 2, t.status, t.pc)) =
      some (2, .running, 0x200) ∧
    after (wait (held 3) (held 3)) (fun t => (t.getV 2, t.status)) =
      some (0, .awaitingKey 2 (held 3)) ∧
    after (wait (held 3) State.reset.keys) (·.status) = some (.awaitingKey 2 State.reset.keys) := by
  decide

/-! ### Step, fetch, errors, the host (95_test_vectors.md 2.6 to 2.8) -/

/-- One step with the inputs the state holds. -/
def stepHere (s : State) : Result := step { s with host := [.step s.keys s.rnd] }

/-- VS1, VS2, VS3, VS5. -/
theorem test_fetch :
    after (stepHere ((regs []).setPc 0x201)) (·.status) =
      some (.halted ⟨.misalignedFetch, 0x201, none, none⟩) ∧
    after (stepHere ((regs []).setPc 0x1000)) (·.status) =
      some (.halted ⟨.memoryOutOfRange, 0x1000, none, some 0x1000⟩) ∧
    after (stepHere ((regs []).setPc 0x1001)) (·.status) =
      some (.halted ⟨.misalignedFetch, 0x1001, none, none⟩) ∧
    after (stepHere (regs [])) (·.status) = some (haltedBy .unknownOpcode 0x0000 none) := by decide

/-- VS4. -/
theorem test_fetch_last :
    after (stepHere (withBytes ((regs []).setPc 0xFFE) 0xFFE [0x60, 0x01])) (fun t => (t.getV 0, t.pc)) =
      some (1, 0x1000) := by decide

/-- VS9, VS10, VT1, VT2. -/
theorem test_tick :
    after (step { State.reset with dt := 3, st := 1, status := .halted ⟨.misalignedFetch, 1, none, none⟩,
                                   host := [.tickTimers] }) (fun t => (t.dt, t.st, t.status.code)) =
      some (2, 0, 6) ∧
    after (step { State.reset with host := [.tickTimers] }) (fun t => (t.dt, t.st)) = some (0, 0) := by
  decide

/-- VI1, VI2. -/
theorem test_initialize :
    after (step { (regs [(3, 9)]) with pc := 0x400, host := [.initProgram [0x12, 0x34]] })
      (fun t => (t.mem.read 0x200, t.mem.read 0x201, t.mem.read 0x202, t.getV 3, t.pc)) =
      some (0x12, 0x34, 0, 0, 0x200) := by decide

/-- Where the host's helper places an instruction when PC cannot be fetched from (log entry 9). -/
theorem test_withFetchWord :
    after (run ((regs []).setPc 0x1001) 0x6A2B) (fun t => (t.getV 0xA, t.pc, t.host)) =
      some (0x2B, 0x202, []) := by decide

/-- D26's table: glyph 7 at 0x23. -/
theorem test_default_font :
    defaultFont.length = 80 ∧ (defaultFont.drop 0x23).take 5 = [0xF0, 0x10, 0x20, 0x40, 0x40] := by
  decide

/-! ### Witnesses: states and operands that meet the hypotheses of the obligations -/

/-- The state with one host operation listed. -/
def next (s : State) (op : HostOp) : State := { s with host := [op] }

/-- A `step` with all keys up and random byte 0 is the next host operation of this state. -/
def stepping (s : State) : State := next s (.step State.reset.keys 0)

/-- What that step's inputs leave. -/
def taken (s : State) : State := { s with host := [], keys := State.reset.keys, rnd := 0 }

theorem takes_stepping (s : State) : TakesStep (stepping s) (taken s) :=
  ⟨_, _, _, .inl ⟨_, rfl, rfl⟩, rfl⟩

/-- The core at an address, with two bytes there. -/
def coreAt (pc : Word) (hi lo : Byte) : State := withBytes (State.reset.setPc pc) pc.toNat [hi, lo]

/-- Both ways an operation comes about: the first of the list, and with an empty list a free one. -/
theorem witness_TakesUp : (∃ u, TakesUp (next State.reset .tickTimers) .tickTimers u) ∧
    ∃ u, TakesUp State.reset (Config.freeHostOp 0) u :=
  ⟨⟨_, .inl ⟨_, rfl, rfl⟩⟩, ⟨_, .inr ⟨rfl, rfl, rfl⟩⟩⟩

theorem witness_DecodeOfEncode : WellFormed (.drw 15 15 15) = true ∧ WellFormed (.drw 0 0 0) = true := by
  decide

theorem witness_DecodedInstructionEncodesBack :
    (∃ i, decode 0x8FF6#16 = .ok i ∧ ∃ x, i = .shr x ∨ i = .shl x) ∧
    (∃ i, decode 0xDFFF#16 = .ok i ∧ ¬ ∃ x, i = .shr x ∨ i = .shl x) :=
  ⟨⟨_, rfl, _, .inl rfl⟩, ⟨_, rfl, by simp⟩⟩

theorem witness_IllegalOpcodes : ∃ s u, TakesStep s u ∧ s.status = .running ∧ s.pc.toNat % 2 = 0 ∧
    s.pc.toNat ≤ 0xFFE ∧ IllegalOpcode (s.mem.readWord s.pc.toNat) :=
  ⟨stepping (State.reset.setPc 0xFFE), _, takes_stepping _, rfl, by decide, by decide,
    .inl (by decide)⟩

theorem witness_StepRuns : ∃ s u i, TakesStep s u ∧ s.status = .running ∧ s.pc.toNat % 2 = 0 ∧
    s.pc.toNat ≤ 0xFFE ∧
    decode (joinBytes (s.mem.read s.pc.toNat) (s.mem.read (s.pc.toNat + 1))) = .ok i :=
  ⟨stepping (coreAt 0xFFE 0x6A 0x2B), _, .ldImm 0xA 0x2B, takes_stepping _, rfl, by decide, by decide,
    by decide⟩

/-- Each clause, at the smallest PC it covers, and the two together at the largest. -/
theorem witness_FetchErrors : ∀ pc ∈ [0x0001#16, 0x1001#16, 0xFFFF#16, 0x1000#16, 0xFFFE#16],
    ∃ s u, TakesStep s u ∧ s.status = .running ∧
      (s.pc.toNat % 2 = 1 ∨ s.pc.toNat % 2 = 0 ∧ 0x1000 ≤ s.pc.toNat) := by
  have clause : [0x0001#16, 0x1001#16, 0xFFFF#16, 0x1000#16, 0xFFFE#16].all
      (fun pc => decide (pc.toNat % 2 = 1 ∨ pc.toNat % 2 = 0 ∧ 0x1000 ≤ pc.toNat)) = true := by decide
  exact fun pc h => ⟨stepping (State.reset.setPc pc), _, takes_stepping _, rfl,
    of_decide_eq_true (List.all_eq_true.mp clause pc h)⟩

theorem witness_Halted : ∃ s u e, TakesStep s u ∧ s.status = .halted e :=
  ⟨stepping (State.reset.raise .misalignedFetch none none), _, _, takes_stepping _, rfl⟩

/-- Both clauses: no key newly pressed; key 15 alone; keys 0 and 15, of which 0 is the lowest. -/
theorem witness_KeyWait :
    (∃ s u x l, TakesStep s u ∧ s.status = .awaitingKey x l ∧
      ∀ k : Reg, ¬ (u.keys[k.val] = true ∧ l[k.val] = false)) ∧
    (∀ k ∈ [(0 : Reg), 15], ∃ s u x l, TakesStep s u ∧ s.status = .awaitingKey x l ∧
      u.keys[k.val] = true ∧ l[k.val] = false ∧
      ∀ j : Reg, j < k → ¬ (u.keys[j.val] = true ∧ l[j.val] = false)) := by
  refine ⟨⟨stepping (State.reset.setStatus (.awaitingKey 2 State.reset.keys)), _, _, _,
    takes_stepping _, rfl, by decide⟩, fun k hk => ?_⟩
  refine ⟨next (State.reset.setStatus (.awaitingKey 2 State.reset.keys))
    (.step (State.reset.keys.set k.val true) 0), _, _, _, ⟨_, _, _, .inl ⟨_, rfl, rfl⟩, rfl⟩, rfl, ?_⟩
  revert k
  decide

theorem witness_Tick : ∃ s u, TakesUp s .tickTimers u :=
  ⟨next State.reset .tickTimers, _, .inl ⟨_, rfl, rfl⟩⟩

/-- The largest program, and the empty one. -/
theorem witness_Initialize : ∀ n ∈ [0, 3584], ∃ (s u : State) (program : List Byte),
    TakesUp s (.initProgram program) u ∧ program.length = n ∧ n ≤ 3584 := fun n h =>
  ⟨next State.reset (.initProgram (List.replicate n 0)), _, _, .inl ⟨_, rfl, rfl⟩,
    List.length_replicate, by revert n; decide⟩

theorem witness_Oversized : ∃ (s u : State) (program : List Byte),
    TakesUp s (.initProgram program) u ∧ 3584 < program.length :=
  ⟨next State.reset (.initProgram (List.replicate 3585 0)), _, _, .inl ⟨_, rfl, rfl⟩,
    by rw [List.length_replicate]; decide⟩

/-- A halted core whose host ticks, at both ends of the timers' range, and one whose host calls `step`. -/
theorem witness_OnlyInitializeLeavesHalted :
    (∃ s t e, s.status = .halted e ∧ step s = .next t ∧ (∃ u, TakesUp s .tickTimers u) ∧
      s.dt = 0xFF ∧ s.st = 0) ∧
    (∃ s t e, s.status = .halted e ∧ step s = .next t ∧ ∃ u, TakesStep s u) :=
  ⟨⟨next ((State.reset.setDt 0xFF).raise .misalignedFetch none none) .tickTimers, _, _, rfl, rfl,
      ⟨_, .inl ⟨_, rfl, rfl⟩⟩, rfl, rfl⟩,
    ⟨stepping (State.reset.raise .misalignedFetch none none), _, _, rfl, rfl, _, takes_stepping _⟩⟩

/-- The self-jump at the last address an instruction can have. -/
theorem witness_SelfJump : ∃ s u, TakesStep s u ∧ s.status = .running ∧ s.pc.toNat % 2 = 0 ∧
    s.pc.toNat ≤ 0xFFE ∧ (s.mem.readWord s.pc.toNat).toNat = 0x1000 + s.pc.toNat :=
  ⟨stepping (coreAt 0xFFE 0x1F 0xFE), _, takes_stepping _, rfl, by decide, by decide, by decide⟩

theorem witness_Jump : (∃ nnn : BitVec 12, nnn.toNat % 2 = 1) ∧
    ∃ (nnn : BitVec 12) (s : State), nnn.toNat = s.pc.toNat :=
  ⟨⟨1, by decide⟩, 0x200, State.reset, by decide⟩

/-- SP at both ends of the range, then full. -/
theorem witness_Call : (∀ n ∈ [(0 : Fin 17), 15], ∃ (s : State) (j : Fin 16), j.val = s.sp.val) ∧
    (∃ s : State, s.sp.val < 16) ∧ ∃ s : State, s.sp.val = 16 :=
  ⟨fun n h => ⟨State.reset.setSp n, ⟨n.val, by revert n; decide⟩, rfl⟩, ⟨State.reset, by decide⟩,
    ⟨State.reset.setSp 16, rfl⟩⟩

theorem witness_Return : (∀ j ∈ [(0 : Fin 16), 15], ∃ s : State, s.sp.val = j.val + 1) ∧
    (∃ s : State, s.sp.val = (0 : Fin 16).val + 1 ∧ s.stack[0].toNat % 2 = 1) ∧
    (∃ s : State, s.sp.val = (15 : Fin 16).val + 1 ∧ s.stack[15].toNat % 2 = 0 ∧
      0x1000 ≤ s.stack[15].toNat) ∧
    ∃ s : State, s.sp.val = 0 :=
  ⟨fun j _ => ⟨State.reset.setSp ⟨j.val + 1, by omega⟩, rfl⟩,
    ⟨(State.reset.setSp 1).setSlot 0 0x201, by decide⟩,
    ⟨(State.reset.setSp 16).setSlot 15 0x1000, by decide⟩, ⟨State.reset, rfl⟩⟩

/-- Each skip both taken and not taken. -/
theorem witness_RegisterSkips : (∃ (x y : Reg) (kk : Byte) (s : State), s.getV x = kk ∧ s.getV x = s.getV y) ∧
    (∃ (x y : Reg) (kk : Byte) (s : State), s.getV x ≠ kk ∧ s.getV x ≠ s.getV y) ∧
    ∃ n : Nat, 0 < n ∧ n < 16 :=
  ⟨⟨0, 1, 0, State.reset, by decide⟩, ⟨0, 1, 1, State.reset.setV 0 9, by decide⟩, 15, by decide⟩

/-- A destination other than VF, and VF itself. -/
theorem witness_Flags : (∃ x : Reg, x ≠ vf) ∧ ∃ x : Reg, x = vf := ⟨⟨0, by decide⟩, ⟨vf, rfl⟩⟩

/-- The last address that fits, and the first that does not. -/
theorem witness_Digits : (∃ s : State, s.effAddr 2 ≤ 0xFFF ∧ s.effAddr 2 = 0xFFF) ∧
    ∃ s : State, 0xFFF < s.effAddr 2 ∧ s.effAddr 2 = 0x1000 :=
  ⟨⟨State.reset.setI 0xFFD, by decide⟩, ⟨State.reset.setI 0xFFE, by decide⟩⟩

theorem witness_Blocks : ∀ x ∈ [(0 : Reg), 15],
    (∃ s : State, ∃ k : Reg, s.effAddr x.val ≤ 0xFFF ∧ s.effAddr x.val = 0xFFF ∧ k ≤ x) ∧
    ∃ s : State, 0xFFF < s.effAddr x.val ∧ s.effAddr x.val = 0x1000 := fun x h =>
  ⟨⟨State.reset.setI (BitVec.ofNat 16 (0xFFF - x.val)), x, by revert x; decide⟩,
    ⟨State.reset.setI (BitVec.ofNat 16 (0x1000 - x.val)), by revert x; decide⟩⟩

theorem witness_StoredBytes : ∃ (x : Reg) (s t : State) (j k : Reg), exec (.ldStore x) s = .next t ∧
    s.effAddr x.val ≤ 0xFFF ∧ k ≤ x ∧ j.val + 1 = k.val ∧ s.effAddr j.val % 2 = 0 :=
  ⟨1, State.reset.setI 0xFFE, _, 0, 1, rfl, by decide, by decide, by decide, by decide⟩

/-- No rows, with nothing to read; fifteen rows that end at the last address; one row too many; and both
clauses about the flag. -/
theorem witness_Draw :
    (∃ s : State, (0 : Nat) ≤ 15 ∧ s.i = 0xFFFF) ∧
    (∃ s : State, s.effAddr (15 - 1) ≤ 0xFFF ∧ s.effAddr (15 - 1) = 0xFFF) ∧
    (∃ s : State, 0xFFF < s.effAddr (15 - 1)) ∧
    (∃ s : State, s.effAddr (5 - 1) ≤ 0xFFF ∧ ∃ r < 5, ∃ c < 8, ∃ q,
      SpriteBitLandsOn s (s.getV 0) (s.getV 1) r c q ∧ s.disp.get q = true) ∧
    (∃ s : State, s.effAddr (5 - 1) ≤ 0xFFF ∧ ∃ r < 5, ∃ c < 8, ∃ q,
      SpriteBitLandsOn s (s.getV 0) (s.getV 1) r c q ∧ s.disp.get q = false) ∧
    (∃ s : State, ¬ ∃ r < 0, ∃ c < 8, ∃ q,
      SpriteBitLandsOn s (s.getV 0) (s.getV 1) r c q ∧ s.disp.get q = true) := by
  have lands : SpriteBitLandsOn glyph7 (glyph7.getV 0) (glyph7.getV 1) 0 0 (5, 3) := by
    refine ⟨by decide, ?_⟩
    generalize Config.edgeMode = m
    cases m <;> decide
  refine ⟨⟨State.reset.setI 0xFFFF, by decide, rfl⟩, ⟨State.reset.setI 0xFF1, by decide⟩,
    ⟨State.reset.setI 0xFF2, by decide⟩,
    ⟨glyph7.setDisp p3, by decide, 0, by decide, 0, by decide, (5, 3), lands, by decide⟩,
    ⟨glyph7, by decide, 0, by decide, 0, by decide, (5, 3), lands, by decide⟩,
    ⟨glyph7, by simp⟩⟩

theorem witness_DrawTwice : ∃ (x y : Reg) (n : Nat) (s : State), x ≠ vf ∧ y ≠ vf ∧ n ≤ 15 ∧
    (n = 0 ∨ s.effAddr (n - 1) ≤ 0xFFF) :=
  ⟨0, 1, 15, State.reset.setI 0xFF1, by decide, by decide, by decide, .inr (by decide)⟩

theorem witness_EdgeModesAgree : ∃ (cx cy : Byte) (n : Nat), cx.toNat + 7 ≤ 63 ∧
    (n = 0 ∨ cy.toNat + n - 1 ≤ 31) :=
  ⟨56, 17, 15, by decide, .inr (by decide)⟩

/-- Key number 0xF, held and not held, and the first number out of range. -/
theorem witness_Keys :
    (∃ (x k : Reg) (s : State), (s.getV x).toNat = k.val ∧ s.keys[k.val] = true) ∧
    (∃ (x k : Reg) (s : State), (s.getV x).toNat = k.val ∧ s.keys[k.val] = false) ∧
    ∃ (x : Reg) (s : State), 0xF < (s.getV x).toNat :=
  ⟨⟨5, 0xF, (regs [(5, 0xF)]).setInputs (held 0xF) 0, by decide⟩,
    ⟨5, 0xF, regs [(5, 0xF)], by decide⟩, ⟨5, regs [(5, 0x10)], by decide⟩⟩

/-- FatalErrorsDiscardEveryOtherEffect and OnlyOwnChecksHalt: each instruction with a check of its own
halts a running core somewhere. -/
theorem witness_Fatal : ∀ p ∈ [(Instr.call 0x300, (regs []).setSp 16), (.ret, regs []),
      (.drw 0 1 5, regs [] 0xFFC), (.ldB 0xA, regs [] 0xFFE), (.ldStore 1, regs [] 0xFFF),
      (.ldLoad 1, regs [] 0xFFF), (.skp 5, regs [(5, 0x10)]), (.sknp 5, regs [(5, 0x10)])],
    p.2.status = .running ∧ ∃ t e, exec p.1 p.2 = .next t ∧ t.status = .halted e ∧
      p.2.status ≠ .halted e := by
  intro p hp
  simp only [List.mem_cons, List.not_mem_nil, or_false] at hp
  rcases hp with rfl | rfl | rfl | rfl | rfl | rfl | rfl | rfl <;>
    exact ⟨rfl, _, _, rfl, rfl, by decide⟩

theorem witness_Suspends : ∃ i s t x latch, exec i s = .next t ∧ s.status = .running ∧
    t.status = .awaitingKey x latch :=
  ⟨.ldVxK 2, State.reset, _, _, _, rfl, rfl, rfl⟩

theorem witness_Timers : (∃ i s t, exec i s = .next t ∧ t.dt ≠ s.dt) ∧
    ∃ i s t, exec i s = .next t ∧ t.st ≠ s.st :=
  ⟨⟨.ldDTVx 1, regs [(1, 60)], _, rfl, by decide⟩, ⟨.ldSTVx 1, regs [(1, 60)], _, rfl, by decide⟩⟩

theorem witness_Display : ∃ i s t, exec i s = .next t ∧ t.disp ≠ s.disp :=
  ⟨.cls, State.reset.setDisp p3, _, rfl, by decide⟩

theorem witness_Memory : ∃ i s t, exec i s = .next t ∧ t.mem ≠ s.mem :=
  ⟨.ldStore 0, regs [(0, 7)] 0xFFF, _, rfl, by decide⟩

theorem witness_Index : ∃ i s t, exec i s = .next t ∧ t.i ≠ s.i :=
  ⟨.ldI 0x2F0, State.reset, _, rfl, by decide⟩

theorem witness_Stack : ∃ i s t, exec i s = .next t ∧ t.sp ≠ s.sp ∧ t.stack ≠ s.stack :=
  ⟨.call 0x300, State.reset, _, rfl, by decide⟩

theorem witness_VF : ∃ i s t, exec i s = .next t ∧ t.getV vf ≠ s.getV vf :=
  ⟨.addReg 1 2, regs [(1, 0xF0), (2, 0x20)], _, rfl, by decide⟩

theorem witness_NotTheInputs :
    (∃ i : Instr, ∀ x kk, i ≠ .rnd x kk) ∧ ∃ i : Instr, ∀ x, i ≠ .skp x ∧ i ≠ .sknp x ∧ i ≠ .ldVxK x :=
  ⟨⟨.cls, by simp⟩, ⟨.cls, by simp⟩⟩

/-- The called routine's own pushes and pops may stand between: here there are none. -/
theorem witness_ReturnUndoesCall : ∃ (s t u : State), s.sp.val < 16 ∧
    exec (.call 0x300) s = .next t ∧ u.sp = t.sp ∧
    ∀ j : Fin 16, j.val < t.sp.val → u.stack[j.val] = t.stack[j.val] :=
  ⟨State.reset.setSp 15, _, _, by decide, rfl, rfl, fun _ _ => rfl⟩

/-- The invariants hold in a state that steps: a fetch error, and an instruction that runs. -/
theorem witness_Invariants :
    (State.reset.setPc 0x10FE).PcBounded ∧
    (∃ s t, s.MemCanonical ∧ s.PcBounded ∧ s.RecordFits ∧ step s = .next t) := by
  refine ⟨by unfold State.PcBounded; decide, stepping State.reset, _, Memory.wf_nil,
    by unfold State.PcBounded; decide, ?_, rfl⟩
  intro e h
  cases h

end Sys2Proof.Tests
end

section
/-! The illegal opcodes: which words each family's table rejects (30_encoding.md R76, R78), and what a
step that fetches one does (40_step_cycle.md R94). -/

namespace Sys2Proof.Machine

/-! ### What the decoder rejects, family by family -/

theorem familyNibble_val (op : Word) : (nibble op 12).val = op.toNat / 4096 := by
  have := op.isLt
  rw [nibble_val]
  omega

theorem lowNibble_val (op : Word) : (nibble op 0).val = op.toNat % 16 := by simp [nibble_val]

theorem decodeFamily0_error_iff (op : Word) :
    decodeFamily 0x0 op = .error (.unknownOpcode op) ↔ op.toNat ≠ 0x00E0 ∧ op.toNat ≠ 0x00EE := by
  simp only [decodeFamily, BitVec.toNat_eq]
  split_ifs <;> simp_all

theorem decodeFamily8_error_iff (n : Nat) (hn : n < 16) (op : Word) :
    decodeFamily8 n op = .error (.unknownOpcode op) ↔
      n ∈ [0x8, 0x9, 0xA, 0xB, 0xC, 0xD, 0xF] := by
  interval_cases n <;> simp [decodeFamily8]

theorem decodeFamilyE_error_iff (kk : Nat) (op : Word) :
    decodeFamilyE kk op = .error (.unknownOpcode op) ↔ kk ∉ [0x9E, 0xA1] := by
  unfold decodeFamilyE
  split <;> simp_all

theorem decodeFamilyF_error_iff (kk : Nat) (op : Word) :
    decodeFamilyF kk op = .error (.unknownOpcode op) ↔
      kk ∉ [0x07, 0x0A, 0x15, 0x18, 0x1E, 0x29, 0x33, 0x55, 0x65] := by
  unfold decodeFamilyF
  split <;> simp_all

/-- The listed words are the ones the decoder rejects: on each of the sixteen high nibbles, the list and
the family's table agree (30_encoding.md R76, R78). -/
theorem illegalOpcode_iff_decode_error (op : Word) :
    IllegalOpcode op ↔ decode op = .error (.unknownOpcode op) := by
  have zeroFamily : op.toNat ≤ 0x0FFF ↔ op.toNat / 4096 = 0x0 := by omega
  have bound : op.toNat / 4096 < 16 := familyNibble_val op ▸ (nibble op 12).isLt
  have table8 := decodeFamily8_error_iff (op.toNat % 16) (by omega) op
  rw [IllegalOpcode, decode, familyNibble_val, zeroFamily]
  generalize op.toNat / 4096 = F at bound
  interval_cases F
  · simp [decodeFamily0_error_iff]
  all_goals simp [decodeFamily, lowNibble_val, fieldKK_toNat, table8, decodeFamilyE_error_iff,
    decodeFamilyF_error_iff]

theorem not_illegalOpcode_iff_decode_ok (op : Word) :
    ¬ IllegalOpcode op ↔ ∃ i, decode op = .ok i := by
  rw [illegalOpcode_iff_decode_error]
  cases hd : decode op with
  | ok i => simp
  | error e => simp [decode_error op e hd]

/-! ### The step that fetches one -/

/-- Raising an error discards every effect but the status (60_exceptions.md R222). -/
theorem changesOnly_raise (u : State) (k : ErrorKind) (opcode addr : Option Word) :
    ChangesOnly (· = .status) u (u.raise k opcode addr) := by
  intro p hp
  cases p with
  | status => exact absurd rfl hp
  | _ => rfl

/-- The Running path on a fetched word that the decoder rejects (40_step_cycle.md R94). -/
theorem fetchDecodeExecute_unknown {u : State} {op : Word} {e : DecodeError} (hf : u.fetch = .ok op)
    (hd : decode op = .error e) :
    fetchDecodeExecute u = .next (u.raise .unknownOpcode (some op) none) := by
  simp only [fetchDecodeExecute, hf, hd]

/-- A running step that fetches an illegal word raises UnknownOpcode in the state with the inputs taken
up. -/
theorem TakesStep.step_illegal {s u : State} (h : TakesStep s u) (hr : s.status = .running)
    (he : s.pc.toNat % 2 = 0) (hpc : s.pc.toNat ≤ 0xFFE)
    (hop : IllegalOpcode (s.mem.readWord s.pc.toNat)) :
    step s = .next (u.raise .unknownOpcode (some (s.mem.readWord s.pc.toNat)) none) := by
  obtain ⟨hmem, -, -, hpcu, -, -, -, -, -, hstatus⟩ := h.core
  have hf : u.fetch = .ok (s.mem.readWord s.pc.toNat) := by
    rw [← hmem, ← hpcu]
    exact u.fetch_ok (hpcu ▸ he) (hpcu ▸ hpc)
  rw [h.step_eq, coreStep_running u (hstatus.trans hr),
    fetchDecodeExecute_unknown hf ((illegalOpcode_iff_decode_error _).mp hop)]

/-- Settles O3: the list agrees with each family's table, and the step raises in the state with its inputs
taken up. -/
theorem illegalOpcodesAreTheListedOnesAndHalt : Obligations.IllegalOpcodesAreTheListedOnesAndHalt := by
  refine ⟨illegalOpcode_iff_decode_error, not_illegalOpcode_iff_decode_ok, ?_⟩
  intro s u hu hr he hpc hop
  refine ⟨_, hu.step_illegal hr he hpc hop, ?_, changesOnly_raise u _ _ _⟩
  obtain ⟨-, -, -, hpcu, -⟩ := hu.core
  rw [State.raise_eq, State.setStatus_status, hpcu]

end Sys2Proof.Machine
end

section
/-! The jump `1NNN` (41_control_flow.md R111): it writes PC and nothing else. -/

namespace Sys2Proof.Machine

/-! ### Addresses as words -/

/-- A 12-bit address keeps its value when it is widened to a word. -/
theorem zext16_addr_toNat (nnn : BitVec 12) : (zext16 nnn).toNat = nnn.toNat :=
  BitVec.toNat_setWidth_of_le (by decide)

/-! ### Writing PC -/

theorem changesOnly_setPc (s : State) (w : Word) : ChangesOnly (· = .pc) s (s.setPc w) := by
  intro p hp
  cases p with
  | pc => exact absurd rfl hp
  | _ => rfl

theorem setPc_eq_self {s : State} {w : Word} (h : w = s.pc) : s.setPc w = s := by
  rw [h, State.setPc]

/-! ### The jump -/

theorem exec_jp (nnn : BitVec 12) (s : State) : exec (.jp nnn) s = .next (s.setPc (zext16 nnn)) := rfl

theorem decode_jp (nnn : BitVec 12) :
    decode (BitVec.ofNat 16 (0x1000 + nnn.toNat)) = .ok (.jp nnn) :=
  decode_ofNat (Laws.DecodeEncode.jp nnn rfl) (packA_toNat 0x1#4 nnn).symm

/-- Settles O13: the jump only writes PC, so its target decides the next fetch, and its own address as the
target is no change. -/
theorem jumpSetsPcToItsTarget : Obligations.JumpSetsPcToItsTarget := by
  intro nnn s
  have target : (s.setPc (zext16 nnn)).pc.toNat = nnn.toNat := zext16_addr_toNat nnn
  refine ⟨decode_jp nnn, s.setPc (zext16 nnn), exec_jp nnn s, target, changesOnly_setPc s _, ?_, ?_⟩
  · intro odd
    exact State.fetch_odd _ (target ▸ odd)
  · intro own
    exact setPc_eq_self (BitVec.eq_of_toNat_eq (target.trans own))

end Sys2Proof.Machine
end

section
/-! The loads `6XKK` and `8XY0` and the immediate add `7XKK` (42_alu.md R132, R133, R134): each writes its
destination register, VF included when x = F, and advances PC. -/

namespace Sys2Proof.Machine

/-! ### Writing one register and advancing -/

theorem getV_writeReg_self (s : State) (x : Reg) (b : Byte) : (s.writeReg x b).getV x = b := by
  simp

theorem writeReg_pc (s : State) (x : Reg) (b : Byte) : (s.writeReg x b).pc = s.pc + 2 := rfl

theorem changesOnly_writeReg (s : State) (x : Reg) (b : Byte) :
    ChangesOnly (fun p => p = .pc ∨ p = .reg x) s (s.writeReg x b) := by
  intro p hp
  cases p with
  | pc => exact absurd (.inl rfl) hp
  | reg r =>
    have hr : r ≠ x := fun e => hp (.inr (congrArg Part.reg e))
    show (s.writeReg x b).getV r = s.getV r
    simp [hr]
  | _ => rfl

/-! ### The three instructions -/

theorem exec_ldImm (x : Reg) (kk : Byte) (s : State) :
    exec (.ldImm x kk) s = .next (s.writeReg x kk) := rfl

theorem exec_addImm (x : Reg) (kk : Byte) (s : State) :
    exec (.addImm x kk) s = .next (s.writeReg x (s.getV x + kk)) := rfl

theorem exec_ldReg (x y : Reg) (s : State) :
    exec (.ldReg x y) s = .next (s.writeReg x (s.getV y)) := rfl

theorem decode_ldImm (x : Reg) (kk : Byte) :
    decode (BitVec.ofNat 16 (0x6000 + x.val * 256 + kk.toNat)) = .ok (.ldImm x kk) :=
  decode_ofNat (Laws.DecodeEncode.ldImm x kk rfl) (packXK_toNat 0x6#4 x kk).symm

theorem decode_addImm (x : Reg) (kk : Byte) :
    decode (BitVec.ofNat 16 (0x7000 + x.val * 256 + kk.toNat)) = .ok (.addImm x kk) :=
  decode_ofNat (Laws.DecodeEncode.addImm x kk rfl) (packXK_toNat 0x7#4 x kk).symm

theorem decode_ldReg (x y : Reg) :
    decode (BitVec.ofNat 16 (0x8000 + x.val * 256 + y.val * 16)) = .ok (.ldReg x y) :=
  decode_ofNat (Laws.DecodeEncode.ldReg x y rfl) (packXYN_toNat 0x8#4 x y 0x0#4).symm

/-- Settles O19: all three are one register write with PC + 2, and the add's result is the byte sum, which
is the sum modulo 256. -/
theorem loadsAndImmediateAddWriteTheirRegister :
    Obligations.LoadsAndImmediateAddWriteTheirRegister := by
  intro x y kk s
  refine ⟨⟨decode_ldImm x kk, _, exec_ldImm x kk s, ?_, writeReg_pc s x _, changesOnly_writeReg s x _⟩,
    ⟨decode_addImm x kk, _, exec_addImm x kk s, ?_, writeReg_pc s x _, changesOnly_writeReg s x _⟩,
    decode_ldReg x y, _, exec_ldReg x y s, ?_, writeReg_pc s x _, changesOnly_writeReg s x _⟩
  · exact getV_writeReg_self s x kk
  · rw [getV_writeReg_self, BitVec.toNat_add]
  · exact getV_writeReg_self s x (s.getV y)

end Sys2Proof.Machine
end

section
/-! The index load `ANNN` (43_index_memory.md R160): it writes I, whose bits 15..12 become 0, and advances
PC. -/

namespace Sys2Proof.Machine

/-! ### Writing I and advancing -/

theorem changesOnly_setI_advance (s : State) (w : Word) :
    ChangesOnly (fun p => p = .pc ∨ p = .index) s (s.setI w).advance := by
  intro p hp
  cases p with
  | pc => exact absurd (.inl rfl) hp
  | index => exact absurd (.inr rfl) hp
  | _ => rfl

/-! ### The index load -/

theorem exec_ldI (nnn : BitVec 12) (s : State) :
    exec (.ldI nnn) s = .next (s.setI (zext16 nnn)).advance := rfl

theorem decode_ldI (nnn : BitVec 12) :
    decode (BitVec.ofNat 16 (0xA000 + nnn.toNat)) = .ok (.ldI nnn) :=
  decode_ofNat (Laws.DecodeEncode.ldI nnn rfl) (packA_toNat 0xA#4 nnn).symm

/-- Settles O24: the load is one write of I with PC + 2, and the 12-bit operand keeps its value as a
word. -/
theorem loadIndexSetsI : Obligations.LoadIndexSetsI := by
  intro nnn s
  have index : (s.setI (zext16 nnn)).advance.i.toNat = nnn.toNat := zext16_addr_toNat nnn
  exact ⟨decode_ldI nnn, _, exec_ldI nnn s, index, rfl, changesOnly_setI_advance s _⟩

end Sys2Proof.Machine
end

section
/-! Clearing the display, `00E0` (44_display.md R180): it writes the display buffer and advances PC. -/

namespace Sys2Proof.Machine

theorem changesOnly_setDisp_advance (s : State) (d : Display) :
    ChangesOnly (fun p => p = .pc ∨ ∃ q, p = .cell q) s (s.setDisp d).advance := by
  intro p hp
  cases p with
  | pc => exact absurd (.inl rfl) hp
  | cell q => exact absurd (.inr ⟨q, rfl⟩) hp
  | _ => rfl

theorem exec_cls (s : State) : exec .cls s = .next (s.setDisp Display.blank).advance := rfl

/-- Settles O30: the instruction is one write of the blank buffer with PC + 2, and VF is in the frame of
that write. -/
theorem clearTurnsEveryCellOff : Obligations.ClearTurnsEveryCellOff := by
  refine ⟨Laws.DecodeEncode.cls rfl, fun s => ?_⟩
  exact ⟨_, exec_cls s, Display.get_blank, rfl, changesOnly_setDisp_advance s _⟩

end Sys2Proof.Machine
end

section
/-! Drawing the same sprite twice, `DXYN` (44_display.md R182, R185): the sprite's cells are distinct, so
the second draw inverts back exactly the cells the first one inverted, and it finds on exactly those that
were off at first. -/

namespace Sys2Proof.Machine

/-! ### Toggling the same cells twice -/

/-- Toggling distinct cells twice restores the display. -/
theorem Display.xorPixels_twice (d : Display) (ps : List Pixel) (h : ps.Nodup) :
    ((d.xorPixels ps).1.xorPixels ps).1 = d := by
  refine Display.ext_get _ _ fun q => ?_
  rw [Display.get_xorPixels _ ps h, Display.get_xorPixels d ps h, Bool.xor_assoc, Bool.xor_self,
    Bool.xor_false]

/-! ### One draw -/

theorem flagByte_eq_one_iff (b : Bool) : flagByte b = 1 ↔ b = true := by
  cases b <;> decide

/-- A draw whose rows, if any, are within memory, by the address of its last row. -/
theorem exec_drw_ok (x y : Reg) (n : Nat) (s : State) (h : n = 0 ∨ s.effAddr (n - 1) ≤ 0xFFF) :
    exec (.drw x y n) s = .next (s.drawSprite Config.edgeMode (s.getV x) (s.getV y) n) := by
  refine execDrw_ok x y n s (h.imp_right fun last => ?_)
  rw [State.effAddr] at last
  omega

section
variable (s : State) (cx cy : Byte) (n : Nat)

/-- A draw leaves memory and I alone, so the same sprite lands on the same cells after it. -/
theorem spriteBitLandsOn_drawSprite (mode : EdgeMode) (ox oy : Byte) (r c : Nat) (q : Pixel) :
    SpriteBitLandsOn (s.drawSprite mode cx cy n) ox oy r c q ↔ SpriteBitLandsOn s ox oy r c q := Iff.rfl

theorem get_drawSprite_ne_iff (hn : n ≤ 15) (q : Pixel) :
    (s.drawSprite Config.edgeMode cx cy n).disp.get q ≠ s.disp.get q ↔
      ∃ r < n, ∃ c < 8, SpriteBitLandsOn s cx cy r c q :=
  get_drawn s.disp Config.edgeMode s.mem s.i.toNat cx.toNat cy.toNat n hn q

/-- VF after a draw reports a collision (44_display.md R185). -/
theorem getV_vf_drawSprite_eq_one_iff (hn : n ≤ 15) :
    (s.drawSprite Config.edgeMode cx cy n).getV vf = 1 ↔
      ∃ r < n, ∃ c < 8, ∃ q, SpriteBitLandsOn s cx cy r c q ∧ s.disp.get q = true := by
  rw [State.getV_drawSprite, if_pos rfl, collisionFlag, flagByte_eq_one_iff, drawn_collide _ _ _ _ _ _ _ hn]
  simp only [SpriteBitLandsOn, State.effAddr, and_assoc]

/-- A cell of the sprite is on after the draw when it was off before. -/
theorem get_drawSprite_of_landsOn (hn : n ≤ 15) {r c : Nat} {q : Pixel} (hr : r < n) (hc : c < 8)
    (h : SpriteBitLandsOn s cx cy r c q) :
    (s.drawSprite Config.edgeMode cx cy n).disp.get q = true ↔ s.disp.get q = false := by
  have inverted := (get_drawSprite_ne_iff s cx cy n hn q).mpr ⟨r, hr, c, hc, h⟩
  rw [Bool.eq_not.mpr inverted, Bool.not_eq_true']

/-! ### Two draws at the same place -/

theorem disp_drawSprite_twice (mode : EdgeMode) (hn : n ≤ 15) :
    ((s.drawSprite mode cx cy n).drawSprite mode cx cy n).disp = s.disp :=
  Display.xorPixels_twice s.disp _ (nodup_spritePixels mode s.mem s.i.toNat cx.toNat cy.toNat n hn)

/-- The second of two draws collides exactly on the sprite's cells that were off before the first. -/
theorem getV_vf_drawSprite_twice_eq_one_iff (hn : n ≤ 15) :
    ((s.drawSprite Config.edgeMode cx cy n).drawSprite Config.edgeMode cx cy n).getV vf = 1 ↔
      ∃ r < n, ∃ c < 8, ∃ q, SpriteBitLandsOn s cx cy r c q ∧ s.disp.get q = false := by
  rw [getV_vf_drawSprite_eq_one_iff _ cx cy n hn]
  refine exists_congr fun r => and_congr_right fun hr => exists_congr fun c => and_congr_right fun hc =>
    exists_congr fun q => ?_
  rw [spriteBitLandsOn_drawSprite]
  exact and_congr_right (get_drawSprite_of_landsOn s cx cy n hn hr hc)

end

/-- The first draw writes no register but VF, so a draw with x and y not F reads the same coordinates
again. -/
theorem exec_drw_again (x y : Reg) (n : Nat) (s : State) (hx : x ≠ vf) (hy : y ≠ vf)
    (h : n = 0 ∨ s.effAddr (n - 1) ≤ 0xFFF) :
    exec (.drw x y n) (s.drawSprite Config.edgeMode (s.getV x) (s.getV y) n) =
      .next ((s.drawSprite Config.edgeMode (s.getV x) (s.getV y) n).drawSprite Config.edgeMode
        (s.getV x) (s.getV y) n) := by
  rw [exec_drw_ok, State.getV_drawSprite, if_neg hx, State.getV_drawSprite, if_neg hy]
  exact h

/-- Settles O35: both draws toggle the same distinct cells, so the second undoes the first, and it meets a
cell that is on where the first turned it on. -/
theorem drawingTwiceRestoresTheDisplay : Obligations.DrawingTwiceRestoresTheDisplay := by
  intro x y n s hx hy hn hrange
  refine ⟨_, _, exec_drw_ok x y n s hrange, exec_drw_again x y n s hx hy hrange, fun q => ?_, ?_⟩
  · rw [disp_drawSprite_twice s _ _ n _ hn]
  · exact getV_vf_drawSprite_twice_eq_one_iff s _ _ n hn

end Sys2Proof.Machine
end

section
/-! The timer transfers `FX07`, `FX15` and `FX18` (45_keys_timers.md R202, R204, R205): each writes its
destination, a register or a timer, and advances PC. -/

namespace Sys2Proof.Machine

/-! ### Writing a timer and advancing -/

theorem changesOnly_setDt_advance (s : State) (b : Byte) :
    ChangesOnly (fun p => p = .pc ∨ p = .dt) s (s.setDt b).advance := by
  intro p hp
  cases p with
  | pc => exact absurd (.inl rfl) hp
  | dt => exact absurd (.inr rfl) hp
  | _ => rfl

theorem changesOnly_setSt_advance (s : State) (b : Byte) :
    ChangesOnly (fun p => p = .pc ∨ p = .st) s (s.setSt b).advance := by
  intro p hp
  cases p with
  | pc => exact absurd (.inl rfl) hp
  | st => exact absurd (.inr rfl) hp
  | _ => rfl

/-- The host reads the sound timer as it stands in the state (60_exceptions.md R234). -/
@[simp] theorem State.view_st (s : State) : s.view.st = s.st := rfl

/-! ### The three instructions -/

theorem exec_ldVxDT (x : Reg) (s : State) : exec (.ldVxDT x) s = .next (s.writeReg x s.dt) := rfl

theorem exec_ldDTVx (x : Reg) (s : State) :
    exec (.ldDTVx x) s = .next (s.setDt (s.getV x)).advance := rfl

theorem exec_ldSTVx (x : Reg) (s : State) :
    exec (.ldSTVx x) s = .next (s.setSt (s.getV x)).advance := rfl

/-- The number of the word `FXkk`, summed as the statements about family F write it. -/
theorem familyF_toNat (x : Reg) (kk : Byte) :
    0xF000 + kk.toNat + x.val * 256 = (packXK 0xF#4 x kk).toNat :=
  (Nat.add_right_comm _ _ _).trans (packXK_toNat 0xF#4 x kk).symm

theorem decode_ldVxDT (x : Reg) :
    decode (BitVec.ofNat 16 (0xF007 + x.val * 256)) = .ok (.ldVxDT x) :=
  decode_ofNat (Laws.DecodeEncode.ldVxDT x rfl) (familyF_toNat x 0x07#8)

theorem decode_ldDTVx (x : Reg) :
    decode (BitVec.ofNat 16 (0xF015 + x.val * 256)) = .ok (.ldDTVx x) :=
  decode_ofNat (Laws.DecodeEncode.ldDTVx x rfl) (familyF_toNat x 0x15#8)

theorem decode_ldSTVx (x : Reg) :
    decode (BitVec.ofNat 16 (0xF018 + x.val * 256)) = .ok (.ldSTVx x) :=
  decode_ofNat (Laws.DecodeEncode.ldSTVx x rfl) (familyF_toNat x 0x18#8)

/-- Settles O38: FX07 is one register write with PC + 2, FX15 and FX18 one write of a timer with PC + 2,
and the host's view copies ST. -/
theorem timerTransfers : Obligations.TimerTransfers := by
  intro x s
  have delay : (s.setDt (s.getV x)).advance.dt = s.getV x := by simp
  have sound : (s.setSt (s.getV x)).advance.st = s.getV x := by simp
  have heard : (s.setSt (s.getV x)).advance.view.st = s.getV x := (State.view_st _).trans sound
  exact ⟨⟨decode_ldVxDT x, _, exec_ldVxDT x s, getV_writeReg_self s x s.dt, writeReg_pc s x _,
      changesOnly_writeReg s x _⟩,
    ⟨decode_ldDTVx x, _, exec_ldDTVx x s, delay, rfl, changesOnly_setDt_advance s _⟩,
    decode_ldSTVx x, _, exec_ldSTVx x s, sound, heard, rfl, changesOnly_setSt_advance s _⟩

end Sys2Proof.Machine
end

section
/-! Decoding and encoding are inverse to each other (30_encoding.md R71..R76, R80), but for the field y of
the two shifts, which the decoder ignores (R74). -/

namespace Sys2Proof.Machine

/-! ### Decoding an encoding -/

/-- No bit of a well-formed instruction is lost in its encoding, constructor by constructor. -/
theorem decode_encode : ∀ i : Instr, Laws.DecodeEncode.Statement i
  | .cls => Laws.DecodeEncode.cls
  | .ret => Laws.DecodeEncode.ret
  | .jp nnn => Laws.DecodeEncode.jp nnn
  | .call nnn => Laws.DecodeEncode.call nnn
  | .seImm x kk => Laws.DecodeEncode.seImm x kk
  | .sneImm x kk => Laws.DecodeEncode.sneImm x kk
  | .seReg x y => Laws.DecodeEncode.seReg x y
  | .ldImm x kk => Laws.DecodeEncode.ldImm x kk
  | .addImm x kk => Laws.DecodeEncode.addImm x kk
  | .ldReg x y => Laws.DecodeEncode.ldReg x y
  | .orReg x y => Laws.DecodeEncode.orReg x y
  | .andReg x y => Laws.DecodeEncode.andReg x y
  | .xorReg x y => Laws.DecodeEncode.xorReg x y
  | .addReg x y => Laws.DecodeEncode.addReg x y
  | .subReg x y => Laws.DecodeEncode.subReg x y
  | .shr x => Laws.DecodeEncode.shr x
  | .subnReg x y => Laws.DecodeEncode.subnReg x y
  | .shl x => Laws.DecodeEncode.shl x
  | .sneReg x y => Laws.DecodeEncode.sneReg x y
  | .ldI nnn => Laws.DecodeEncode.ldI nnn
  | .jpV0 nnn => Laws.DecodeEncode.jpV0 nnn
  | .rnd x kk => Laws.DecodeEncode.rnd x kk
  | .drw x y n => Laws.DecodeEncode.drw x y n
  | .skp x => Laws.DecodeEncode.skp x
  | .sknp x => Laws.DecodeEncode.sknp x
  | .ldVxDT x => Laws.DecodeEncode.ldVxDT x
  | .ldVxK x => Laws.DecodeEncode.ldVxK x
  | .ldDTVx x => Laws.DecodeEncode.ldDTVx x
  | .ldSTVx x => Laws.DecodeEncode.ldSTVx x
  | .addI x => Laws.DecodeEncode.addI x
  | .ldF x => Laws.DecodeEncode.ldF x
  | .ldB x => Laws.DecodeEncode.ldB x
  | .ldStore x => Laws.DecodeEncode.ldStore x
  | .ldLoad x => Laws.DecodeEncode.ldLoad x

/-- Settles O1, by the cases of the instruction. -/
theorem decodeOfEncodeGivesTheInstructionBack : Obligations.DecodeOfEncodeGivesTheInstructionBack :=
  decode_encode

/-- Settles O4: each word, written out bit by bit, is evaluated by the decoder. -/
theorem sampleOpcodesDecode : Obligations.SampleOpcodesDecode := by
  unfold Obligations.SampleOpcodesDecode
  decide

/-! ### A word from its fields -/

section
variable {op : Word} {f : BitVec 4} (hf : (nibble op 12).val = f.toNat)
include hf

theorem packA_fields : packA f (fieldNNN op) = op := by
  apply BitVec.eq_of_toNat_eq
  rw [packA_toNat, fieldNNN_toNat, ← hf, familyNibble_val]
  omega

theorem packXK_fields : packXK f (fieldX op) (fieldKK op) = op := by
  apply BitVec.eq_of_toNat_eq
  rw [packXK_toNat, fieldX_val, fieldKK_toNat, ← hf, familyNibble_val]
  omega

theorem packXYN_fields {n : BitVec 4} (hn : (nibble op 0).val = n.toNat) :
    packXYN f (fieldX op) (fieldY op) n = op := by
  apply BitVec.eq_of_toNat_eq
  rw [packXYN_toNat, fieldX_val, fieldY_val, ← hf, ← hn, familyNibble_val, lowNibble_val]
  omega

end

/-- Masking the ignored field of a word writes it as 0. -/
theorem packXYN_mask (f n : BitVec 4) (x y : Reg) :
    packXYN f x y n &&& 0xFF0F#16 = packXYN f x 0 n := by
  have mask : 0xFF0F#16 = 0xF#4 ++ 0xF#4 ++ 0x0#4 ++ 0xF#4 := rfl
  have ones (v : BitVec 4) : v &&& 0xF#4 = v := BitVec.and_allOnes
  rw [packXYN, mask, BitVec.and_append, BitVec.and_append, BitVec.and_append, BitVec.and_zero,
    ones, ones, ones]
  rfl

/-! ### Encoding what was decoded -/

/-- `i` is well formed and encodes to `op`, but for the ignored field of a shift. -/
def EncodesBack (op : Word) (i : Instr) : Prop :=
  WellFormed i = true ∧
    ((∃ x, i = .shr x ∨ i = .shl x) → encode i = op &&& 0xFF0F#16) ∧
    ((¬ ∃ x, i = .shr x ∨ i = .shl x) → encode i = op)

theorem EncodesBack.of_encode {op : Word} {i : Instr} (he : encode i = op)
    (hs : ¬ ∃ x, i = .shr x ∨ i = .shl x := by simp) (hw : WellFormed i = true := by exact rfl) :
    EncodesBack op i :=
  ⟨hw, fun h => absurd h hs, fun _ => he⟩

theorem EncodesBack.of_shift {op : Word} {i : Instr} (he : encode i = op &&& 0xFF0F#16)
    (hs : ∃ x, i = .shr x ∨ i = .shl x) (hw : WellFormed i = true := by exact rfl) : EncodesBack op i :=
  ⟨hw, fun _ => he, fun h => absurd hs h⟩

section
variable {op : Word} {i : Instr}

theorem decodeFamily0_encodesBack (h : decodeFamily 0x0 op = .ok i) : EncodesBack op i := by
  simp only [decodeFamily] at h
  split_ifs at h with hcls hret
  · cases h; exact .of_encode hcls.symm
  · cases h; exact .of_encode hret.symm

/-- Family 8: only the two shifts drop the field y. -/
theorem decodeFamily8_encodesBack (hf : (nibble op 12).val = 0x8)
    (h : decodeFamily8 (nibble op 0).val op = .ok i) : EncodesBack op i := by
  have shifted {n : BitVec 4} (hn : (nibble op 0).val = n.toNat) :
      packXYN 0x8#4 (fieldX op) 0 n = op &&& 0xFF0F#16 := by
    rw [← packXYN_mask _ _ _ (fieldY op), packXYN_fields hf hn]
  generalize hn : (nibble op 0).val = n at h
  unfold decodeFamily8 at h
  split at h
  case h_7 => cases h; exact .of_shift (shifted hn) ⟨_, .inl rfl⟩
  case h_9 => cases h; exact .of_shift (shifted hn) ⟨_, .inr rfl⟩
  case h_10 => cases h
  all_goals cases h; exact .of_encode (packXYN_fields hf hn)

/-- A word of format X with the sub-opcode kk, from its fields. -/
theorem packX_fields {f : BitVec 4} {kk : Byte} (hf : (nibble op 12).val = f.toNat)
    (hk : (fieldKK op).toNat = kk.toNat) : packXK f (fieldX op) kk = op := by
  rw [← BitVec.eq_of_toNat_eq hk, packXK_fields hf]

theorem decodeFamilyE_encodesBack (hf : (nibble op 12).val = 0xE)
    (h : decodeFamilyE (fieldKK op).toNat op = .ok i) : EncodesBack op i := by
  generalize hk : (fieldKK op).toNat = kk at h
  unfold decodeFamilyE at h
  split at h
  case h_3 => cases h
  all_goals cases h; exact .of_encode (packX_fields hf hk)

theorem decodeFamilyF_encodesBack (hf : (nibble op 12).val = 0xF)
    (h : decodeFamilyF (fieldKK op).toNat op = .ok i) : EncodesBack op i := by
  generalize hk : (fieldKK op).toNat = kk at h
  unfold decodeFamilyF at h
  split at h
  case h_10 => cases h
  all_goals cases h; exact .of_encode (packX_fields hf hk)

theorem drw_encodesBack (hf : (nibble op 12).val = 0xD) :
    EncodesBack op (.drw (fieldX op) (fieldY op) (nibble op 0).val) := by
  have bound := (nibble op 0).isLt
  have low : (nibble op 0).val = (BitVec.ofNat 4 (nibble op 0).val).toNat := by
    rw [BitVec.toNat_ofNat, Nat.mod_eq_of_lt bound]
  exact .of_encode (packXYN_fields hf low) (hw := decide_eq_true (by omega))

/-- The families in the order of their high nibble, the first of which is 0. -/
theorem decode_encodesBack (h : decode op = .ok i) : EncodesBack op i := by
  unfold decode at h
  generalize hf : (nibble op 12).val = F at h
  unfold decodeFamily at h
  split at h
  case h_1 => exact decodeFamily0_encodesBack h
  case h_9 => exact decodeFamily8_encodesBack hf h
  case h_14 => cases h; exact drw_encodesBack hf
  case h_15 => exact decodeFamilyE_encodesBack hf h
  case h_16 => exact decodeFamilyF_encodesBack hf h
  case h_17 => cases h
  case h_6 | h_10 =>
    split_ifs at h with low
    cases h
    exact .of_encode (packXYN_fields hf low)
  case h_2 | h_3 | h_11 | h_12 => cases h; exact .of_encode (packA_fields hf)
  all_goals cases h; exact .of_encode (packXK_fields hf)

end

/-- Settles O2: in every family the decoded fields make up the word again. -/
theorem decodedInstructionEncodesBack : Obligations.DecodedInstructionEncodesBack :=
  fun _ _ h => decode_encodesBack h

end Sys2Proof.Machine
end

section
/-! What one instruction can do to the whole machine: it always answers a next state, it halts the core
only by its own check and then does nothing else, and only FX0A suspends (60_exceptions.md R222, R224;
40_step_cycle.md R99). -/

namespace Sys2Proof.Machine

/-! ### The converse of `exec_cases` -/

section
variable {s t : State} {i : Instr}

theorem Completed.exec_eq (h : Completed s i t) : exec i s = .next t := by
  cases h with
  | ret h => exact execRet_ok s h
  | call nnn h => exact execCall_ok nnn s h
  | drw x y n h => exact execDrw_ok x y n s h
  | skp x h => exact execSkp_ok x s h
  | sknp x h => exact execSknp_ok x s h
  | ldB x h => exact execLdB_ok x s h
  | ldStore x h => exact execLdStore_ok x s h
  | ldLoad x h => exact execLdLoad_ok x s h
  | _ => rfl

theorem FailsCheck.exec_eq {k : ErrorKind} {a : Option Word} (h : FailsCheck s i k a) :
    exec i s = .next (s.raise k (some (encode i)) a) := by
  cases h with
  | ret h => exact execRet_raises s h
  | call nnn h => exact execCall_raises nnn s h
  | drw x y n hn h => exact execDrw_raises x y n s hn h
  | skp x h => exact execSkp_raises x s h
  | sknp x h => exact execSknp_raises x s h
  | ldB x h => exact execLdB_raises x s h
  | ldStore x h => exact execLdStore_raises x s h
  | ldLoad x h => exact execLdLoad_raises x s h

end

/-- An instruction whose check fails enters the error it raises and discards every other effect. -/
theorem FailsCheck.raises {s : State} {i : Instr} {k : ErrorKind} {a : Option Word}
    (h : FailsCheck s i k a) : Raises i s ⟨k, s.pc, some (encode i), a⟩ :=
  ⟨_, h.exec_eq, rfl, changesOnly_raise s k _ a⟩

/-- The same, with the recorded opcode as the number of its encoding. -/
theorem FailsCheck.raises_ofNat {s : State} {i : Instr} {k : ErrorKind} {a : Option Word} {w : Nat}
    (h : FailsCheck s i k a) (hw : w = (encode i).toNat) :
    Raises i s ⟨k, s.pc, some (BitVec.ofNat 16 w), a⟩ := by
  rw [ofNat_eq_encode hw]
  exact h.raises

/-! ### Every instruction answers -/

theorem withRange_next (instr : Instr) (a n : Nat) (s goOn : State) :
    ∃ t, withRange instr a n s goOn = .next t := by
  rcases withRange_cases instr a n s goOn with ⟨-, h⟩ | ⟨-, h⟩ <;> exact ⟨_, h⟩

/-- Settles O40: an instruction with a check of its own answers whether the check passes or not, and every
other one has a single next state. -/
theorem everyInstructionAnswersANextState : Obligations.EveryInstructionAnswersANextState := by
  intro i s
  cases i with
  | ret =>
    rcases Nat.eq_zero_or_pos s.sp.val with h | h
    · exact ⟨_, execRet_raises s h⟩
    · exact ⟨_, execRet_ok s h⟩
  | call nnn =>
    rcases Nat.lt_or_ge s.sp.val 16 with h | h
    · exact ⟨_, execCall_ok nnn s h⟩
    · exact ⟨_, execCall_raises nnn s (by omega)⟩
  | skp x =>
    rcases Nat.lt_or_ge (s.getV x).toNat 16 with h | h
    · exact ⟨_, execSkp_ok x s h⟩
    · exact ⟨_, execSkp_raises x s h⟩
  | sknp x =>
    rcases Nat.lt_or_ge (s.getV x).toNat 16 with h | h
    · exact ⟨_, execSknp_ok x s h⟩
    · exact ⟨_, execSknp_raises x s h⟩
  | drw x y n =>
    by_cases hn : n = 0
    · exact ⟨_, execDrw_ok x y n s (.inl hn)⟩
    · exact (withRange_next ..).imp fun t ht => (if_neg hn).trans ht
  | ldB x => exact withRange_next ..
  | ldStore x => exact withRange_next ..
  | ldLoad x => exact withRange_next ..
  | _ => exact ⟨_, rfl⟩

/-! ### The run status -/

/-- Completing leaves the run status alone, but for FX0A, which begins a wait. -/
theorem Completed.status {s t : State} {i : Instr} (h : Completed s i t) :
    t.status = s.status ∨ ∃ x, i = .ldVxK x ∧ t.status = .awaitingKey x s.keys := by
  cases h with
  | ldVxK x => exact .inr ⟨x, rfl, rfl⟩
  | _ => exact .inl (by simp)

/-- An instruction that enters a record does so by its own check. -/
theorem exec_halts {s t : State} {i : Instr} {e : ErrorRecord} (h : exec i s = .next t)
    (ht : t.status = .halted e) (hs : s.status ≠ .halted e) :
    ∃ k a, FailsCheck s i k a ∧ t = s.raise k (some (encode i)) a ∧
      e = ⟨k, s.pc, some (encode i), a⟩ := by
  rcases exec_cases h with hc | ⟨k, a, hf, rfl⟩
  · rcases hc.status with same | ⟨x, -, waits⟩
    · exact absurd (same.symm.trans ht) hs
    · cases waits.symm.trans ht
  · cases ht
    exact ⟨k, a, hf, rfl, rfl⟩

/-- Settles O41: the record comes from the instruction's own check, which only raises. -/
theorem fatalErrorsDiscardEveryOtherEffect : Obligations.FatalErrorsDiscardEveryOtherEffect := by
  intro i s t e h ht hs
  obtain ⟨k, a, -, rfl, rfl⟩ := exec_halts h ht hs
  exact ⟨rfl, changesOnly_raise s k _ a⟩

/-- Settles O42, by the cases of the failing check. -/
theorem onlyOwnChecksHalt : Obligations.OnlyOwnChecksHalt := by
  intro i s t e h hs ht
  obtain ⟨k, a, hf, -, rfl⟩ := exec_halts h ht (by simp [hs])
  cases hf with
  | call nnn full => exact .inl ⟨⟨nnn, rfl⟩, full, rfl⟩
  | ret empty => exact .inr (.inl ⟨rfl, empty, rfl⟩)
  | drw x y n hn bad =>
    have last : 0xFFF < s.effAddr (n - 1) := by rw [State.effAddr]; omega
    exact .inr (.inr (.inl ⟨⟨x, y, n, rfl, by omega, last⟩, rfl⟩))
  | ldB x bad => exact .inr (.inr (.inr (.inl ⟨⟨x, rfl⟩, bad, rfl⟩)))
  | ldStore x bad => exact .inr (.inr (.inr (.inr (.inl ⟨⟨x, .inl rfl, bad⟩, rfl⟩))))
  | ldLoad x bad => exact .inr (.inr (.inr (.inr (.inl ⟨⟨x, .inr rfl, bad⟩, rfl⟩))))
  | skp x bad => exact .inr (.inr (.inr (.inr (.inr ⟨⟨x, .inl rfl, bad⟩, rfl⟩))))
  | sknp x bad => exact .inr (.inr (.inr (.inr (.inr ⟨⟨x, .inr rfl, bad⟩, rfl⟩))))

/-- Settles O43: a failed check halts, and of the completed instructions only FX0A moves the status. -/
theorem onlyTheKeyWaitSuspends : Obligations.OnlyTheKeyWaitSuspends := by
  intro i s t x latch h hs ht
  rcases exec_cases h with hc | ⟨k, a, -, rfl⟩
  · rcases hc.status with same | ⟨x, rfl, waits⟩
    · cases (same.trans hs).symm.trans ht
    · cases waits.symm.trans ht
      exact ⟨rfl, rfl⟩
  · cases ht

end Sys2Proof.Machine
end

section
/-! The frame of each part of the state: which instructions can change it (10_state.md R21, R25..R27, R30;
20_memory.md R50; 40_step_cycle.md R98). An instruction whose check fails changes the status only. -/

namespace Sys2Proof.Machine

/-- Settles O44: of the completed instructions only FX15 writes DT and only FX18 writes ST. -/
theorem onlyTimerInstructionsChangeTimers : Obligations.OnlyTimerInstructionsChangeTimers := by
  intro i s t h
  rcases exec_cases h with hc | ⟨k, a, -, rfl⟩
  · cases hc with
    | ldDTVx x => exact ⟨fun _ => ⟨x, rfl⟩, fun hst => absurd rfl hst⟩
    | ldSTVx x => exact ⟨fun hdt => absurd rfl hdt, fun _ => ⟨x, rfl⟩⟩
    | _ => exact ⟨fun hdt => by simp at hdt, fun hst => by simp at hst⟩
  · exact ⟨fun hdt => by simp at hdt, fun hst => by simp at hst⟩

/-- Settles O45, by the cases of the completed instruction. -/
theorem onlyClearAndDrawChangeTheDisplay : Obligations.OnlyClearAndDrawChangeTheDisplay := by
  intro i s t h hdisp
  rcases exec_cases h with hc | ⟨k, a, -, rfl⟩
  · cases hc with
    | cls => exact .inl rfl
    | drw x y n => exact .inr ⟨x, y, n, rfl⟩
    | _ => simp at hdisp
  · simp at hdisp

/-- Settles O46, by the cases of the completed instruction. -/
theorem onlyStoresChangeMemory : Obligations.OnlyStoresChangeMemory := by
  intro i s t h hmem
  rcases exec_cases h with hc | ⟨k, a, -, rfl⟩
  · cases hc with
    | ldB x => exact ⟨x, .inl rfl⟩
    | ldStore x => exact ⟨x, .inr rfl⟩
    | _ => simp at hmem
  · simp at hmem

/-- Settles O47, by the cases of the completed instruction. -/
theorem onlyIndexInstructionsChangeI : Obligations.OnlyIndexInstructionsChangeI := by
  intro i s t h hi
  rcases exec_cases h with hc | ⟨k, a, -, rfl⟩
  · cases hc with
    | ldI nnn => exact .inl ⟨nnn, rfl⟩
    | addI x => exact .inr ⟨x, .inl rfl⟩
    | ldF x => exact .inr ⟨x, .inr rfl⟩
    | _ => simp at hi
  · simp at hi

/-- Settles O48: a call writes a slot and SP, a return SP only, and no other instruction either. -/
theorem onlyCallAndReturnChangeTheStack : Obligations.OnlyCallAndReturnChangeTheStack := by
  intro i s t h
  rcases exec_cases h with hc | ⟨k, a, -, rfl⟩
  · cases hc with
    | call nnn => exact ⟨fun _ => .inr ⟨nnn, rfl⟩, fun _ => ⟨nnn, rfl⟩⟩
    | ret => exact ⟨fun _ => .inl rfl, fun hstack => absurd rfl hstack⟩
    | _ => exact ⟨fun hsp => by simp at hsp, fun hstack => by simp at hstack⟩
  · exact ⟨fun hsp => by simp at hsp, fun hstack => by simp at hstack⟩

/-! ### VF -/

/-- A register write changes VF only when VF is its destination. -/
theorem eq_vf_of_writeReg {s : State} {x : Reg} {b : Byte} (h : (s.writeReg x b).getV vf ≠ s.getV vf) :
    x = vf := by
  by_contra hx
  simp [Ne.symm hx] at h

/-- A block load changes VF only when it loads all sixteen registers. -/
theorem eq_vf_of_setRegBlock {s : State} {x : Reg} {f : Nat → Byte}
    (h : (s.setRegBlock x f).advance.getV vf ≠ s.getV vf) : x = vf := by
  by_contra hx
  have below : x.val < 15 := Nat.lt_of_le_of_ne (Nat.le_of_lt_succ x.isLt) fun e => hx (Fin.ext e)
  simp [Nat.not_le.mpr below] at h

/-- Settles O49: the flag writers and DXYN are named at once; one register or the block is written by the
others, and that has to reach VF. -/
theorem onlyFlagWritersAndDestinationsChangeVF : Obligations.OnlyFlagWritersAndDestinationsChangeVF := by
  intro i s t h hvf
  rcases exec_cases h with hc | ⟨k, a, -, rfl⟩
  · cases hc with
    | addReg x y => exact .inl ⟨x, y, by simp⟩
    | subReg x y => exact .inl ⟨x, y, by simp⟩
    | subnReg x y => exact .inl ⟨x, y, by simp⟩
    | shr x => exact .inl ⟨x, 0, by simp⟩
    | shl x => exact .inl ⟨x, 0, by simp⟩
    | drw x y n => exact .inl ⟨x, y, by simp⟩
    | ldImm x kk => exact .inr ⟨0, kk, by simp [eq_vf_of_writeReg hvf]⟩
    | addImm x kk => exact .inr ⟨0, kk, by simp [eq_vf_of_writeReg hvf]⟩
    | ldReg x y => exact .inr ⟨y, 0, by simp [eq_vf_of_writeReg hvf]⟩
    | orReg x y => exact .inr ⟨y, 0, by simp [eq_vf_of_writeReg hvf]⟩
    | andReg x y => exact .inr ⟨y, 0, by simp [eq_vf_of_writeReg hvf]⟩
    | xorReg x y => exact .inr ⟨y, 0, by simp [eq_vf_of_writeReg hvf]⟩
    | rnd x kk => exact .inr ⟨0, kk, by simp [eq_vf_of_writeReg hvf]⟩
    | ldVxDT x => exact .inr ⟨0, 0, by simp [eq_vf_of_writeReg hvf]⟩
    | ldLoad x => exact .inr ⟨0, 0, by simp [eq_vf_of_setRegBlock hvf]⟩
    | _ => simp at hvf
  · simp at hvf

end Sys2Proof.Machine
end

section
/-! Which instructions the inputs of a step reach: only CXKK reads the random byte, and only EX9E, EXA1 and
FX0A read the keys (10_state.md R33, R38). -/

namespace Sys2Proof.Machine

section
variable {s t : State} {i : Instr} {ks : Keys} {b : Byte}

/-- Completing is the same with other inputs in the state, if they are no other for the instruction. -/
theorem Completed.setInputs (hk : ks = s.keys ∨ ∀ x, i ≠ .skp x ∧ i ≠ .sknp x ∧ i ≠ .ldVxK x)
    (hb : b = s.rnd ∨ ∀ x kk, i ≠ .rnd x kk) (h : Completed s i t) :
    Completed (s.setInputs ks b) i (t.setInputs ks b) := by
  cases h with
  | rnd x kk =>
    obtain rfl := hb.resolve_right fun hi => hi x kk rfl
    exact .rnd x kk
  | skp x h =>
    obtain rfl := hk.resolve_right fun hi => (hi x).1 rfl
    exact .skp (s := s.setInputs s.keys b) x h
  | sknp x h =>
    obtain rfl := hk.resolve_right fun hi => (hi x).2.1 rfl
    exact .sknp (s := s.setInputs s.keys b) x h
  | ldVxK x =>
    obtain rfl := hk.resolve_right fun hi => (hi x).2.2 rfl
    exact .ldVxK x
  | ret h => exact .ret (s := s.setInputs ks b) h
  | call nnn h => exact .call (s := s.setInputs ks b) nnn h
  | drw x y n h => exact .drw x y n h
  | ldB x h => exact .ldB x h
  | ldStore x h => exact .ldStore x h
  | ldLoad x h => exact .ldLoad x h
  | _ => constructor

/-- No check looks at the inputs. -/
theorem FailsCheck.setInputs {k : ErrorKind} {a : Option Word} (h : FailsCheck s i k a) :
    FailsCheck (s.setInputs ks b) i k a := by
  cases h <;> constructor <;> assumption

/-- No instruction writes the inputs. -/
theorem exec_inputs (h : exec i s = .next t) : t.keys = s.keys ∧ t.rnd = s.rnd := by
  rcases exec_cases h with hc | ⟨k, a, -, rfl⟩
  · cases hc <;> simp
  · simp

theorem exec_setInputs (hk : ks = s.keys ∨ ∀ x, i ≠ .skp x ∧ i ≠ .sknp x ∧ i ≠ .ldVxK x)
    (hb : b = s.rnd ∨ ∀ x kk, i ≠ .rnd x kk) (h : exec i s = .next t) :
    exec i (s.setInputs ks b) = .next (t.setInputs ks b) := by
  rcases exec_cases h with hc | ⟨k, a, hf, rfl⟩
  · exact (hc.setInputs hk hb).exec_eq
  · exact hf.setInputs.exec_eq

end

/-- Settles O50: with the keys as they are, the random byte is no other for any instruction but CXKK. -/
theorem randomByteReachesOnlyItsInstruction : Obligations.RandomByteReachesOnlyItsInstruction := by
  intro i s b hi
  obtain ⟨t, ht⟩ := everyInstructionAnswersANextState i s
  have same : t.setInputs s.keys b = { t with rnd := b } := by rw [← (exec_inputs ht).1]; rfl
  exact ⟨t, ht, same ▸ exec_setInputs (.inl rfl) (.inr hi) ht⟩

/-- Settles O51: with the random byte as it is, the keys are no other for any instruction but the three. -/
theorem keysReachOnlyTheirInstructions : Obligations.KeysReachOnlyTheirInstructions := by
  intro i s ks hi
  obtain ⟨t, ht⟩ := everyInstructionAnswersANextState i s
  have same : t.setInputs ks s.rnd = { t with keys := ks } := by rw [← (exec_inputs ht).2]; rfl
  exact ⟨t, ht, same ▸ exec_setInputs (.inr hi) (.inl rfl) ht⟩

end Sys2Proof.Machine
end

section
/-! The three invariants of the machine, each kept by everything a transition can do and true after reset:
the canonical form of memory (log entry 8), the bounds of PC and of the return addresses (10_state.md R24,
41_control_flow.md R112), and error records that fit their kind (60_exceptions.md R220, R221). -/

namespace Sys2Proof.Machine

/-! ### The canonical form of memory -/

section
variable {s t : State} {i : Instr}

/-- The two stores write inside the address space; no other instruction writes memory. -/
theorem Completed.memCanonical (hs : s.MemCanonical) (h : Completed s i t) : t.MemCanonical := by
  cases h with
  | ldB x h =>
    exact Memory.wf_writeBytes _ _ _ hs (by rw [length_decimalDigits]; omega)
  | ldStore x h =>
    exact Memory.wf_writeBytes _ _ _ hs (by rw [State.length_regBlock]; omega)
  | _ => simpa [State.MemCanonical] using hs

end

theorem initProgram_memCanonical (u : State) (program : List Byte) :
    (u.initProgram program).MemCanonical := by
  rw [State.initProgram]
  split_ifs with fits
  · change _ ≤ 3584 at fits
    exact Memory.wf_writeBytes _ _ _ Memory.wf_nil (by show 0x200 + _ ≤ 0x1000; omega)
  · exact Memory.wf_nil

/-- Settles O53: only stores in range and a program being loaded write memory. -/
theorem stepKeepsMemoryCanonical : Obligations.StepKeepsMemoryCanonical := by
  intro s t hs h
  apply step_keeps State.MemCanonical (hs := hs) (h := h)
  case takenUp =>
    intro s op u hu hs
    obtain ⟨later, n, rfl⟩ := hu.core
    exact hs
  case keyWait =>
    intro u x latch _ hu
    rw [State.serviceKeyWait]
    split <;> exact hu
  case executes =>
    intro u i t op _ _ _ he hu
    rcases exec_cases he with hc | ⟨k, a, -, rfl⟩
    · exact hc.memCanonical hu
    · exact hu
  case init => exact fun u program _ => initProgram_memCanonical u program
  case inputs => exact fun _ _ _ hs => hs
  case fetchError => exact fun _ _ _ _ hu => hu
  case unknown => exact fun _ _ _ _ hu => hu
  case tick => exact fun _ hu => hu

/-! ### PC and the return addresses -/

section
variable {s t : State} {i : Instr}

/-- PC after an instruction that runs at a fetchable address: the next or the one after, a jump's target, or
a popped return address. -/
theorem Completed.pc_le (hpc : s.pc.toNat ≤ 0xFFE) (hs : s.PcBounded) (h : Completed s i t) :
    t.pc.toNat ≤ 0x10FE := by
  have next : (s.pc + 2).toNat ≤ 0x10FE := by bv_omega
  have skip (c : Bool) : (s.skipIf c).pc.toNat ≤ 0x10FE := by
    cases c
    · exact next
    · show (s.pc + 4).toNat ≤ 0x10FE
      bv_omega
  have target (nnn : BitVec 12) : (zext16 nnn).toNat ≤ 0xFFF := by
    rw [zext16_addr_toNat]
    have := nnn.isLt
    omega
  cases h with
  | jp nnn | call nnn => exact (target nnn).trans (by decide)
  | jpV0 nnn =>
    have v0 : (zext16 (s.getV 0)).toNat ≤ 0xFF := by
      have := (s.getV 0).isLt
      rw [BitVec.toNat_setWidth_of_le (by decide)]
      omega
    have := target nnn
    rw [State.setPc_pc, BitVec.toNat_add]
    omega
  | ret h => exact (hs.2 ⟨s.sp.val - 1, by omega⟩).trans (by decide)
  | seImm | sneImm | seReg | sneReg | skp | sknp => exact skip _
  | _ => simpa using next

/-- A call writes one return address, PC + 2; no other instruction writes a slot. -/
theorem Completed.slot_le (hpc : s.pc.toNat ≤ 0xFFE) (hs : s.PcBounded) (h : Completed s i t) (j : Fin 16) :
    t.stack[j.val].toNat ≤ 0x1000 := by
  have before := hs.2 j
  cases h with
  | call nnn h =>
    show (s.stack.set s.sp.val (s.pc + 2) h)[j.val].toNat ≤ 0x1000
    rw [Vector.getElem_set]
    split
    · bv_omega
    · exact before
  | _ => simpa using before

end

theorem reset_pcBounded : State.reset.PcBounded := by
  unfold State.PcBounded
  decide

theorem initProgram_pcBounded (u : State) (program : List Byte) : (u.initProgram program).PcBounded := by
  rw [State.initProgram]
  split <;> exact reset_pcBounded

/-- Settles O54: an instruction runs only where it can be fetched, and the return address it pops is one of
the bounded slots. -/
theorem stepKeepsPcBounded : Obligations.StepKeepsPcBounded := by
  intro s t hs h
  apply step_keeps State.PcBounded (hs := hs) (h := h)
  case takenUp =>
    intro s op u hu hs
    obtain ⟨later, n, rfl⟩ := hu.core
    exact hs
  case keyWait =>
    intro u x latch _ hu
    rw [State.serviceKeyWait]
    split <;> exact hu
  case executes =>
    intro u i t op _ hf _ he hu
    obtain ⟨-, hpc, -⟩ := u.fetch_eq_ok op hf
    rcases exec_cases he with hc | ⟨k, a, -, rfl⟩
    · exact ⟨hc.pc_le hpc hu, hc.slot_le hpc hu⟩
    · exact hu
  case init => exact fun u program _ => initProgram_pcBounded u program
  case inputs => exact fun _ _ _ hs => hs
  case fetchError => exact fun _ _ _ _ hu => hu
  case unknown => exact fun _ _ _ _ hu => hu
  case tick => exact fun _ hu => hu

/-! ### Error records -/

section
variable {s t : State} {i : Instr}

/-- Raising enters a fitting record when the record raised fits. -/
theorem recordFits_raise {k : ErrorKind} {op a : Option Word}
    (h : ErrorRecord.Fits ⟨k, s.pc, op, a⟩) : (s.raise k op a).RecordFits := by
  intro e he
  cases he
  exact h

theorem FailsCheck.fits {k : ErrorKind} {a : Option Word} (h : FailsCheck s i k a) :
    ErrorRecord.Fits ⟨k, s.pc, some (encode i), a⟩ := by
  cases h with
  | call nnn => exact ⟨⟨nnn, rfl⟩, rfl⟩
  | ret => exact ⟨rfl, rfl⟩
  | skp x => exact ⟨⟨x, .inl rfl⟩, rfl⟩
  | sknp x => exact ⟨⟨x, .inr rfl⟩, rfl⟩
  | drw | ldB | ldStore | ldLoad => exact ⟨_, rfl, badAddr_ge s.i, nofun⟩

/-- The record of a fetch error: an odd PC, or the PC itself as the address. -/
theorem fetch_error_fits {k : ErrorKind} {a : Option Word} (h : s.fetch = .error (k, a)) :
    ErrorRecord.Fits ⟨k, s.pc, none, a⟩ := by
  by_cases odd : s.pc.toNat % 2 = 1
  · cases (s.fetch_odd odd).symm.trans h
    exact ⟨odd, rfl, rfl⟩
  · by_cases high : 0x1000 ≤ s.pc.toNat
    · cases (s.fetch_high (by omega) high).symm.trans h
      exact ⟨s.pc, rfl, high, fun _ => rfl⟩
    · cases (s.fetch_ok (by omega) (by omega)).symm.trans h

end

theorem initProgram_recordFits (u : State) (program : List Byte) :
    (u.initProgram program).RecordFits := by
  rw [State.initProgram]
  split
  · exact nofun
  · exact recordFits_raise ⟨rfl, rfl, rfl⟩

/-- Settles O55: every record a transition enters is raised by a fetch, a decode, an instruction's own check
or an oversized program, and fits there. -/
theorem stepKeepsRecordsFitting : Obligations.StepKeepsRecordsFitting := by
  intro s t hs h
  apply step_keeps State.RecordFits (hs := hs) (h := h)
  case takenUp =>
    intro s op u hu hs
    obtain ⟨later, n, rfl⟩ := hu.core
    exact hs
  case keyWait =>
    intro u x latch _ _
    rw [State.serviceKeyWait]
    split <;> exact nofun
  case fetchError => exact fun u k a hf _ => recordFits_raise (fetch_error_fits hf)
  case unknown => exact fun u op _ hd _ => recordFits_raise ⟨⟨op, rfl, hd⟩, rfl⟩
  case executes =>
    intro u i t op _ _ _ he hu
    rcases exec_cases he with hc | ⟨k, a, hf, rfl⟩
    · rcases hc.status with same | ⟨x, -, waits⟩
      · exact fun e ht => hu e (same.symm.trans ht)
      · exact fun e ht => nomatch waits.symm.trans ht
    · exact recordFits_raise hf.fits
  case init => exact fun u program _ => initProgram_recordFits u program
  case inputs => exact fun _ _ _ hs => hs
  case tick => exact fun _ hu => hu

/-! ### After reset -/

/-- Settles O56: reset lists no memory, its PC and slots are small numbers, and it is running. -/
theorem resetMeetsTheInvariants : Obligations.ResetMeetsTheInvariants :=
  ⟨Memory.wf_nil, reset_pcBounded, nofun⟩

end Sys2Proof.Machine
end

section
/-! The host operation `step`: fetch and its errors, the Running path, the halted core, the key-wait
service, the self-jump (40_step_cycle.md R90..R99, 70_reset_and_hazards.md R245). -/

namespace Sys2Proof.Machine

/-! ### The Running path -/

/-- The Running path on a fetched word that decodes (40_step_cycle.md R95). -/
theorem fetchDecodeExecute_ok {u : State} {op : Word} {i : Instr} (hf : u.fetch = .ok op)
    (hd : decode op = .ok i) : fetchDecodeExecute u = exec i u := by
  simp only [fetchDecodeExecute, hf, hd]

theorem fetchDecodeExecute_fetchError {u : State} {k : ErrorKind} {a : Option Word}
    (hf : u.fetch = .error (k, a)) : fetchDecodeExecute u = .next (u.raise k none a) := by
  simp only [fetchDecodeExecute, hf]

section
variable {s u : State} (h : TakesStep s u)
include h

/-- Fetching does not see the inputs. -/
theorem TakesStep.fetch_eq : u.fetch = s.fetch := by
  obtain ⟨hmem, -, -, hpc, -⟩ := h.core
  rw [State.fetch, State.fetch, hmem, hpc]

theorem TakesStep.pc_eq : u.pc = s.pc := by
  obtain ⟨-, -, -, hpc, -⟩ := h.core
  exact hpc

theorem TakesStep.status_eq : u.status = s.status := by
  obtain ⟨-, -, -, -, -, -, -, -, -, hstatus⟩ := h.core
  exact hstatus

theorem TakesStep.step_running (hr : s.status = .running) : step s = fetchDecodeExecute u := by
  rw [h.step_eq, coreStep_running u (h.status_eq.trans hr)]

/-- A running step at a fetchable address whose word decodes. -/
theorem TakesStep.step_exec {i : Instr} (hr : s.status = .running) (he : s.pc.toNat % 2 = 0)
    (hpc : s.pc.toNat ≤ 0xFFE) (hd : decode (s.mem.readWord s.pc.toNat) = .ok i) :
    step s = exec i u := by
  rw [h.step_running hr, fetchDecodeExecute_ok (h.fetch_eq.trans (s.fetch_ok he hpc)) hd]

/-- A running step whose fetch fails raises the fetch's error. -/
theorem TakesStep.step_fetchError {k : ErrorKind} {a : Option Word} (hr : s.status = .running)
    (hf : s.fetch = .error (k, a)) :
    ∃ t, step s = .next t ∧ t.status = .halted ⟨k, s.pc, none, a⟩ ∧
      ChangesOnly (· = .status) u t := by
  refine ⟨u.raise k none a, ?_, ?_, changesOnly_raise u k none a⟩
  · rw [h.step_running hr, fetchDecodeExecute_fetchError (h.fetch_eq.trans hf)]
  · rw [State.raise_eq, State.setStatus_status, h.pc_eq]

end

/-- Settles O5: the two bytes at PC are the fetched word. -/
theorem stepRunsTheDecodedInstruction : Obligations.StepRunsTheDecodedInstruction :=
  fun _ _ _ h hr he hpc hd => h.step_exec hr he hpc hd

/-- Settles O6, by the two checks of the fetch. -/
theorem fetchErrorsHalt : Obligations.FetchErrorsHalt := fun s _ h hr =>
  ⟨fun odd => h.step_fetchError hr (s.fetch_odd odd),
    fun even high => h.step_fetchError hr (s.fetch_high even high)⟩

/-! ### The other statuses -/

theorem State.result_halted {u : State} {e : ErrorRecord} (h : u.status = .halted e) :
    u.result = .error e := by
  simp only [State.result, h]

theorem State.result_running {u : State} (h : u.status = .running) : u.result = .ok () := by
  simp only [State.result, h]

theorem TakesStep.step_halted {s u : State} {e : ErrorRecord} (h : TakesStep s u)
    (hs : s.status = .halted e) : step s = .next u := by
  rw [h.step_eq, coreStep_halted u e (h.status_eq.trans hs)]

/-- Settles O7: the halted core's step is the state with its inputs taken up. -/
theorem stepWhileHaltedChangesNothing : Obligations.StepWhileHaltedChangesNothing :=
  fun _ _ _ h hs => ⟨h.step_halted hs, State.result_halted (h.status_eq.trans hs)⟩

theorem changesOnly_setStatus (s : State) (w : Status) : ChangesOnly (· = .status) s (s.setStatus w) := by
  intro p hp
  cases p with
  | status => exact absurd rfl hp
  | _ => rfl

theorem changesOnly_setV_setStatus (s : State) (x : Reg) (b : Byte) (w : Status) :
    ChangesOnly (fun p => p = .status ∨ p = .reg x) s ((s.setV x b).setStatus w) := by
  intro p hp
  cases p with
  | status => exact absurd (.inl rfl) hp
  | reg r =>
    have hr : r ≠ x := fun e => hp (.inr (congrArg Part.reg e))
    show ((s.setV x b).setStatus w).getV r = s.getV r
    simp [hr]
  | _ => rfl

theorem serviceKeyWait_none {u : State} {x : Reg} {latch : Keys} (h : lowestNewKey u.keys latch = none) :
    u.serviceKeyWait x latch = u.setStatus (.awaitingKey x u.keys) := by
  simp only [State.serviceKeyWait, h]

theorem serviceKeyWait_some {u : State} {x k : Reg} {latch : Keys}
    (h : lowestNewKey u.keys latch = some k) :
    u.serviceKeyWait x latch = (u.setV x (BitVec.ofNat 8 k.val)).setStatus .running := by
  simp only [State.serviceKeyWait, h]

/-- Settles O8: the service moves the latch when `lowestNewKey` finds none, and takes the key it finds. -/
theorem keyWaitServiceTakesTheLowestNewKey : Obligations.KeyWaitServiceTakesTheLowestNewKey := by
  intro s u x latch h hs
  have served : step s = .next (u.serviceKeyWait x latch) := by
    rw [h.step_eq, coreStep_awaiting u x latch (h.status_eq.trans hs)]
  refine ⟨fun nothing => ?_, fun k pressed released lowest => ?_⟩
  · rw [serviceKeyWait_none (lowestNewKey_none _ _ nothing)] at served
    exact ⟨_, served, rfl, changesOnly_setStatus u _⟩
  · rw [serviceKeyWait_some (lowestNewKey_some _ _ k pressed released lowest)] at served
    refine ⟨_, served, rfl, ?_, changesOnly_setV_setStatus u x _ _⟩
    have := k.isLt
    rw [State.getV_setStatus, State.getV_setV, if_pos rfl, BitVec.toNat_ofNat]
    omega

/-! ### The self-jump -/

/-- Settles O59: the word at PC is the jump to PC, and a jump to its own address writes nothing new. -/
theorem selfJumpSpins : Obligations.SelfJumpSpins := by
  intro s u h hr he hpc hword
  obtain ⟨here, hhere⟩ : ∃ here : BitVec 12, here.toNat = s.pc.toNat :=
    ⟨BitVec.ofNat 12 s.pc.toNat, by rw [BitVec.toNat_ofNat]; omega⟩
  have hd : decode (s.mem.readWord s.pc.toNat) = .ok (.jp here) := by
    rw [← decode_jp here, hhere, ← hword, BitVec.ofNat_toNat, BitVec.setWidth_eq]
  have own : zext16 here = u.pc := by
    apply BitVec.eq_of_toNat_eq
    rw [zext16_addr_toNat, hhere, h.pc_eq]
  refine ⟨?_, State.result_running (h.status_eq.trans hr)⟩
  rw [h.step_exec hr he hpc hd, exec_jp, setPc_eq_self own]

/-! ### Every transition answers -/

/-- Settles O57: each host operation answers, a `step` in every status and on every fetch. -/
theorem everyTransitionAnswersANextState : Obligations.EveryTransitionAnswersANextState := by
  intro s
  rcases step_cases s with ⟨u, hu, -⟩ | ⟨u, -, hs⟩ | ⟨program, u, -, hs⟩
  · rw [hu.step_eq]
    cases hc : u.status with
    | halted e => exact ⟨_, coreStep_halted u e hc⟩
    | awaitingKey x latch => exact ⟨_, coreStep_awaiting u x latch hc⟩
    | running =>
      rw [coreStep_running u hc]
      rcases fetchDecodeExecute_cases u with ⟨k, a, -, h⟩ | ⟨op, -, -, h⟩ | ⟨op, i, -, -, h⟩
      · exact ⟨_, h⟩
      · exact ⟨_, h⟩
      · rw [h]
        exact everyInstructionAnswersANextState i u
  · exact ⟨_, hs⟩
  · exact ⟨_, hs⟩

end Sys2Proof.Machine
end

section
/-! The host's other operations and the halted core: `tickTimers` (60_exceptions.md R230), `initProgram`
(70_reset_and_hazards.md R240, R241), the reset state (10_state.md R39), and what a halted core does
(60_exceptions.md R223). -/

namespace Sys2Proof.Machine

/-! ### The tick -/

/-- One lower, or 0 if 0. -/
theorem countDown_toNat (b : Byte) : (if b = 0 then 0 else b - 1).toNat = b.toNat - 1 := by
  split_ifs with zero
  · simp [zero]
  · bv_omega

theorem tickTimers_dt_toNat (u : State) : u.tickTimers.dt.toNat = u.dt.toNat - 1 :=
  countDown_toNat u.dt

theorem tickTimers_st_toNat (u : State) : u.tickTimers.st.toNat = u.st.toNat - 1 :=
  countDown_toNat u.st

theorem changesOnly_tickTimers (u : State) :
    ChangesOnly (fun p => p = .dt ∨ p = .st) u u.tickTimers := by
  intro p hp
  cases p with
  | dt => exact absurd (.inl rfl) hp
  | st => exact absurd (.inr rfl) hp
  | _ => rfl

/-- What a tick makes of the timers, read before the operation is taken up. -/
theorem TakesUp.tick_timers {s u : State} (h : TakesUp s .tickTimers u) :
    u.tickTimers.dt.toNat = s.dt.toNat - 1 ∧ u.tickTimers.st.toNat = s.st.toNat - 1 := by
  obtain ⟨later, n, rfl⟩ := h.core
  exact ⟨tickTimers_dt_toNat _, tickTimers_st_toNat _⟩

/-- Settles O9: the tick is served in every status and is two timer writes. -/
theorem tickDecrementsBothTimers : Obligations.TickDecrementsBothTimers := by
  intro s u h
  obtain ⟨hdt, hst⟩ := h.tick_timers
  exact ⟨_, h.tick_eq, hdt, hst, changesOnly_tickTimers u⟩

/-! ### The reset state -/

theorem background_font (a : Nat) (h : a < 80) : Memory.background a = Config.font ⟨a, h⟩ := dif_pos h

theorem background_zero (a : Nat) (h : 80 ≤ a) : Memory.background a = 0 := dif_neg (Nat.not_lt.mpr h)

theorem reset_getV (r : Reg) : State.reset.getV r = 0 := by simp [State.getV, State.reset]

theorem reset_stack (j : Fin 16) : State.reset.stack[j.val] = 0 := by simp [State.reset]

theorem reset_disp (p : Pixel) : State.reset.disp.get p = false := Display.get_blank p

/-- Settles O12: memory reads as its background, and every other field is a literal. -/
theorem resetStateIsAsTheSpecSays : Obligations.ResetStateIsAsTheSpecSays :=
  ⟨background_font, background_zero, reset_getV, rfl, rfl, rfl, reset_stack, rfl, rfl, reset_disp, rfl⟩

/-! ### Loading a program -/

/-- The core state after reset, whatever the host's side holds. -/
theorem changesOnly_resetCore (u : State) :
    ChangesOnly (fun p => p = .host ∨ p = .keys ∨ p = .rnd ∨ p = .opsDrawn) State.reset u.resetCore := by
  intro p hp
  cases p with
  | host => exact absurd (.inl rfl) hp
  | keys => exact absurd (.inr (.inl rfl)) hp
  | rnd => exact absurd (.inr (.inr (.inl rfl))) hp
  | opsDrawn => exact absurd (.inr (.inr (.inr rfl))) hp
  | _ => rfl

theorem initProgram_fits {program : List Byte} (u : State) (h : program.length ≤ 3584) :
    u.initProgram program = u.resetCore.setMem (Memory.writeBytes [] 0x200 program) := if_pos h

theorem initProgram_oversized {program : List Byte} (u : State) (h : 3584 < program.length) :
    u.initProgram program = u.resetCore.raise .programTooLarge none none := if_neg (Nat.not_le.mpr h)

/-- A byte of a loaded program. -/
theorem read_loaded (program : List Byte) (k : Nat) (h : k < program.length) :
    (Memory.writeBytes [] 0x200 program).read (0x200 + k) = program[k] := by
  rw [Memory.read_writeBytes, dif_pos ⟨Nat.le_add_right _ _, Nat.add_lt_add_left h _⟩]
  simp only [Nat.add_sub_cancel_left]

/-- A byte outside a loaded program reads as after reset. -/
theorem read_outside_loaded (program : List Byte) (a : Nat)
    (h : a < 0x200 ∨ 0x200 + program.length ≤ a) :
    (Memory.writeBytes [] 0x200 program).read a = Memory.background a :=
  Memory.read_writeBytes_outside _ _ _ _ (by omega)

/-- Settles O10: the program's bytes are written over the reset state's memory, and nothing else is. -/
theorem initializeLoadsTheProgram : Obligations.InitializeLoadsTheProgram := by
  intro s u program h fits
  refine ⟨_, h.init_eq, ?_⟩
  rw [initProgram_fits u fits]
  exact ⟨fun a ha => (read_outside_loaded program a (by omega)).trans (background_font a ha),
    read_loaded program,
    fun a ha outside => (read_outside_loaded program a outside).trans (background_zero a ha),
    reset_getV, rfl, rfl, reset_stack, rfl, rfl, rfl, reset_disp, rfl, rfl, rfl, rfl, rfl, rfl⟩

/-- Settles O11: nothing is copied, and the error is raised at the reset state's PC. -/
theorem oversizedProgramIsRefused : Obligations.OversizedProgramIsRefused := by
  intro s u program h large
  refine ⟨_, h.init_eq, ?_⟩
  rw [initProgram_oversized u large]
  refine ⟨rfl, rfl, fun p hp => ?_⟩
  have reset := changesOnly_resetCore u p fun carried => hp (.inr carried)
  cases p with
  | status => exact absurd (.inl rfl) hp
  | _ => exact reset

/-! ### The halted core -/

/-- A host makes one operation next. -/
theorem TakesUp.op_unique {s u w : State} {op op' : HostOp} (h : TakesUp s op u) (h' : TakesUp s op' w) :
    op = op' :=
  congrArg Prod.fst (h.nextHostOp_eq.symm.trans h'.nextHostOp_eq)

/-- Taking up an operation moves the host's side only. -/
theorem TakesUp.changesOnly {s u : State} {op : HostOp} (h : TakesUp s op u) :
    ChangesOnly (fun p => p = .host ∨ p = .opsDrawn) s u := by
  obtain ⟨later, n, rfl⟩ := h.core
  intro p hp
  cases p with
  | host => exact absurd (.inl rfl) hp
  | opsDrawn => exact absurd (.inr rfl) hp
  | _ => rfl

/-- Taking up a step moves the host's side and the inputs only. -/
theorem TakesStep.changesOnly {s u : State} (h : TakesStep s u) :
    ChangesOnly (fun p => (p = .host ∨ p = .opsDrawn) ∨ p = .keys ∨ p = .rnd) s u := by
  obtain ⟨ks, b, w, hw, rfl⟩ := h
  intro p hp
  have kept := hw.changesOnly p fun side => hp (.inl side)
  cases p with
  | keys => exact absurd (.inr (.inl rfl)) hp
  | rnd => exact absurd (.inr (.inr rfl)) hp
  | _ => exact kept

/-- Parts unchanged in two changes on end are unchanged in both together. -/
theorem Unchanged.trans {s u t : State} {p : Part} (h : Unchanged s u p) (h' : Unchanged u t p) :
    Unchanged s t p := by
  cases p <;> exact Eq.trans h' h

/-- Settles O58, by the host's operation: a step takes up its inputs, a tick moves the timers, and the
third one loads a program. -/
theorem onlyInitializeLeavesHalted : Obligations.OnlyInitializeLeavesHalted := by
  intro s t e hs h
  rcases step_cases s with ⟨u, hu, -⟩ | ⟨u, hu, hstep⟩ | ⟨program, u, hu, -⟩
  · cases (hu.step_halted hs).symm.trans h
    refine .inr ⟨hu.status_eq.trans hs, fun ⟨w, hw⟩ => ?_, fun p hp => hu.changesOnly p ?_⟩
    · obtain ⟨ks, b, v, hv, -⟩ := hu
      cases hv.op_unique hw
    · rintro (side | input)
      · exact hp (side.imp_right .inl)
      · exact hp (.inr (.inr (.inl ⟨⟨_, hu⟩, input⟩)))
  · cases hstep.symm.trans h
    refine .inr ⟨?_, fun _ => hu.tick_timers, fun p hp => ?_⟩
    · obtain ⟨later, n, rfl⟩ := hu.core
      exact hs
    · exact (hu.changesOnly p fun side => hp (side.imp_right .inl)).trans
        (changesOnly_tickTimers u p fun timer => hp (.inr (.inr (.inr ⟨⟨_, hu⟩, timer⟩))))
  · exact .inl ⟨program, u, hu⟩

end Sys2Proof.Machine
end

section
/-! Control transfer: the jump with offset, the call and the return, and the skips on a comparison
(41_control_flow.md R112..R119). -/

namespace Sys2Proof.Machine

/-! ### The jump with offset -/

theorem exec_jpV0 (nnn : BitVec 12) (s : State) :
    exec (.jpV0 nnn) s = .next (s.setPc (zext16 (s.getV 0) + zext16 nnn)) := rfl

theorem decode_jpV0 (nnn : BitVec 12) :
    decode (BitVec.ofNat 16 (0xB000 + nnn.toNat)) = .ok (.jpV0 nnn) :=
  decode_ofNat (Laws.DecodeEncode.jpV0 nnn rfl) (packA_toNat 0xB#4 nnn).symm

/-- A byte keeps its value when it is widened to a word. -/
theorem zext16_byte_toNat (b : Byte) : (zext16 b).toNat = b.toNat :=
  BitVec.toNat_setWidth_of_le (by decide)

/-- Settles O14: the sum of a byte and a 12-bit address fits in a word, so nothing is reduced. -/
theorem jumpWithOffsetAddsV0 : Obligations.JumpWithOffsetAddsV0 := by
  intro nnn s
  refine ⟨decode_jpV0 nnn, _, exec_jpV0 nnn s, ?_, changesOnly_setPc s _⟩
  have := (s.getV 0).isLt
  have := nnn.isLt
  rw [State.setPc_pc, BitVec.toNat_add, zext16_byte_toNat, zext16_addr_toNat]
  omega

/-! ### The call and the return -/

theorem decode_call (nnn : BitVec 12) :
    decode (BitVec.ofNat 16 (0x2000 + nnn.toNat)) = .ok (.call nnn) :=
  decode_ofNat (Laws.DecodeEncode.call nnn rfl) (packA_toNat 0x2#4 nnn).symm

/-- The frame of a call: one slot, SP and PC. -/
theorem changesOnly_call (s : State) (j : Fin 16) (w : Word) (n : Fin 17) (target : Word) :
    ChangesOnly (fun p => p = .pc ∨ p = .sp ∨ p = .slot j) s
      (((s.setSlot j w).setSp n).setPc target) := by
  intro p hp
  cases p with
  | pc => exact absurd (.inl rfl) hp
  | sp => exact absurd (.inr (.inl rfl)) hp
  | slot k =>
    have hk : j.val ≠ k.val := fun e => hp (.inr (.inr (congrArg Part.slot (Fin.ext e.symm))))
    exact Vector.getElem_set_ne j.isLt k.isLt hk
  | _ => rfl

/-- The frame of a return. -/
theorem changesOnly_setSp_setPc (s : State) (n : Fin 17) (target : Word) :
    ChangesOnly (fun p => p = .pc ∨ p = .sp) s ((s.setSp n).setPc target) := by
  intro p hp
  cases p with
  | pc => exact absurd (.inl rfl) hp
  | sp => exact absurd (.inr rfl) hp
  | _ => rfl

/-- Settles O15: the call is one slot write, at the old SP, with SP and PC. -/
theorem callPushesTheReturnAddress : Obligations.CallPushesTheReturnAddress := by
  intro nnn s j hj
  have room : s.sp.val < 16 := hj ▸ j.isLt
  obtain rfl : ⟨s.sp.val, room⟩ = j := Fin.ext hj.symm
  exact ⟨decode_call nnn, _, execCall_ok nnn s room, Vector.getElem_set_self room, rfl,
    zext16_addr_toNat nnn, changesOnly_call s _ _ _ _⟩

/-- Settles O16: the call's own check fails. -/
theorem callOnAFullStackHalts : Obligations.CallOnAFullStackHalts := fun nnn _ full =>
  (FailsCheck.call nnn full).raises_ofNat (packA_toNat 0x2#4 nnn).symm

/-- Settles O17: the popped slot is written to PC, whose own checks the next fetch makes. -/
theorem returnPopsPc : Obligations.ReturnPopsPc := by
  refine ⟨Laws.DecodeEncode.ret rfl, fun s j hj => ?_, fun s empty => (FailsCheck.ret empty).raises⟩
  have popped : exec .ret s = .next ((s.setSp ⟨j.val, by omega⟩).setPc s.stack[j.val]) := by
    rw [(Completed.ret (s := s) (by omega)).exec_eq]
    simp only [hj, Nat.add_sub_cancel]
  exact ⟨_, popped, rfl, rfl, changesOnly_setSp_setPc s _ _, State.fetch_odd (State.setPc _ _),
    State.fetch_high (State.setPc _ _)⟩

/-- Settles O52: SP is above 0 after the call, and the top slot, which the later state still holds, is the
return address. -/
theorem returnUndoesCall : Obligations.ReturnUndoesCall := by
  intro nnn s h
  refine ⟨_, execCall_ok nnn s h, fun u hsp hstack => ?_⟩
  have depth : u.sp.val = s.sp.val + 1 := congrArg Fin.val hsp
  have top : u.stack[s.sp.val] = s.pc + 2 :=
    (hstack ⟨s.sp.val, h⟩ (Nat.lt_succ_self _)).trans (Vector.getElem_set_self h)
  refine ⟨_, execRet_ok u (by omega), ?_, Fin.ext ?_⟩
  · simpa only [State.setPc_pc, depth, Nat.add_sub_cancel] using top
  · show u.sp.val - 1 = s.sp.val
    omega

/-! ### The skips -/

theorem exec_seImm (x : Reg) (kk : Byte) (s : State) :
    exec (.seImm x kk) s = .next (s.skipIf (s.getV x == kk)) := rfl

theorem exec_sneImm (x : Reg) (kk : Byte) (s : State) :
    exec (.sneImm x kk) s = .next (s.skipIf (s.getV x != kk)) := rfl

theorem exec_seReg (x y : Reg) (s : State) :
    exec (.seReg x y) s = .next (s.skipIf (s.getV x == s.getV y)) := rfl

theorem exec_sneReg (x y : Reg) (s : State) :
    exec (.sneReg x y) s = .next (s.skipIf (s.getV x != s.getV y)) := rfl

theorem decode_seImm (x : Reg) (kk : Byte) :
    decode (BitVec.ofNat 16 (0x3000 + x.val * 256 + kk.toNat)) = .ok (.seImm x kk) :=
  decode_ofNat (Laws.DecodeEncode.seImm x kk rfl) (packXK_toNat 0x3#4 x kk).symm

theorem decode_sneImm (x : Reg) (kk : Byte) :
    decode (BitVec.ofNat 16 (0x4000 + x.val * 256 + kk.toNat)) = .ok (.sneImm x kk) :=
  decode_ofNat (Laws.DecodeEncode.sneImm x kk rfl) (packXK_toNat 0x4#4 x kk).symm

theorem decode_seReg (x y : Reg) :
    decode (BitVec.ofNat 16 (0x5000 + x.val * 256 + y.val * 16)) = .ok (.seReg x y) :=
  decode_ofNat (Laws.DecodeEncode.seReg x y rfl) (packXYN_toNat 0x5#4 x y 0x0#4).symm

theorem decode_sneReg (x y : Reg) :
    decode (BitVec.ofNat 16 (0x9000 + x.val * 256 + y.val * 16)) = .ok (.sneReg x y) :=
  decode_ofNat (Laws.DecodeEncode.sneReg x y rfl) (packXYN_toNat 0x9#4 x y 0x0#4).symm

theorem changesOnly_skipIf (s : State) (c : Bool) : ChangesOnly (· = .pc) s (s.skipIf c) :=
  changesOnly_setPc s _

section
variable (x y : Reg) (n : Nat) (hn : 0 < n) (hn' : n < 16)
include hn hn'

/-- 5XYn with a low nibble other than 0 is illegal (30_encoding.md R78). -/
theorem decode_seReg_strict : decode (BitVec.ofNat 16 (0x5000 + x.val * 256 + y.val * 16 + n)) =
    .error (.unknownOpcode (BitVec.ofNat 16 (0x5000 + x.val * 256 + y.val * 16 + n))) := by
  refine (illegalOpcode_iff_decode_error _).mp (.inr (.inl ?_))
  rw [BitVec.toNat_ofNat]
  omega

/-- 9XYn with a low nibble other than 0 is illegal (30_encoding.md R78). -/
theorem decode_sneReg_strict : decode (BitVec.ofNat 16 (0x9000 + x.val * 256 + y.val * 16 + n)) =
    .error (.unknownOpcode (BitVec.ofNat 16 (0x9000 + x.val * 256 + y.val * 16 + n))) := by
  refine (illegalOpcode_iff_decode_error _).mp (.inr (.inr (.inr (.inl ?_))))
  rw [BitVec.toNat_ofNat]
  omega

end

/-- Settles O18: each is one write of PC, chosen by its comparison. -/
theorem registerSkipsCompare : Obligations.RegisterSkipsCompare := by
  intro x y kk s
  exact ⟨⟨decode_seImm x kk, _, exec_seImm x kk s, changesOnly_skipIf s _, by simp⟩,
    ⟨decode_sneImm x kk, _, exec_sneImm x kk s, changesOnly_skipIf s _, by simp⟩,
    ⟨decode_seReg x y, decode_seReg_strict x y, _, exec_seReg x y s, changesOnly_skipIf s _, by simp⟩,
    decode_sneReg x y, decode_sneReg_strict x y, _, exec_sneReg x y s, changesOnly_skipIf s _, by simp⟩

end Sys2Proof.Machine
end

section
/-! The register-register operations, the shifts and the random byte (42_alu.md R135..R143): each writes its
destination, the flag writers VF after it, and advances PC. -/

namespace Sys2Proof.Machine

/-! ### Bitwise operations and the random byte -/

theorem exec_orReg (x y : Reg) (s : State) :
    exec (.orReg x y) s = .next (s.writeReg x (s.getV x ||| s.getV y)) := rfl

theorem exec_andReg (x y : Reg) (s : State) :
    exec (.andReg x y) s = .next (s.writeReg x (s.getV x &&& s.getV y)) := rfl

theorem exec_xorReg (x y : Reg) (s : State) :
    exec (.xorReg x y) s = .next (s.writeReg x (s.getV x ^^^ s.getV y)) := rfl

theorem exec_rnd (x : Reg) (kk : Byte) (s : State) :
    exec (.rnd x kk) s = .next (s.writeReg x (s.rnd &&& kk)) := rfl

/-- The number of the word `8xyn`, summed as the statements about family 8 write it. -/
theorem family8_toNat (x y : Reg) (n : BitVec 4) :
    0x8000 + n.toNat + x.val * 256 + y.val * 16 = (packXYN 0x8#4 x y n).toNat := by
  rw [packXYN_toNat]
  show _ = 0x8 * 4096 + _ + _ + _
  omega

theorem decode_orReg (x y : Reg) :
    decode (BitVec.ofNat 16 (0x8001 + x.val * 256 + y.val * 16)) = .ok (.orReg x y) :=
  decode_ofNat (Laws.DecodeEncode.orReg x y rfl) (family8_toNat x y 0x1#4)

theorem decode_andReg (x y : Reg) :
    decode (BitVec.ofNat 16 (0x8002 + x.val * 256 + y.val * 16)) = .ok (.andReg x y) :=
  decode_ofNat (Laws.DecodeEncode.andReg x y rfl) (family8_toNat x y 0x2#4)

theorem decode_xorReg (x y : Reg) :
    decode (BitVec.ofNat 16 (0x8003 + x.val * 256 + y.val * 16)) = .ok (.xorReg x y) :=
  decode_ofNat (Laws.DecodeEncode.xorReg x y rfl) (family8_toNat x y 0x3#4)

theorem decode_rnd (x : Reg) (kk : Byte) :
    decode (BitVec.ofNat 16 (0xC000 + x.val * 256 + kk.toNat)) = .ok (.rnd x kk) :=
  decode_ofNat (Laws.DecodeEncode.rnd x kk rfl) (packXK_toNat 0xC#4 x kk).symm

/-- Settles O20: each is one register write with PC + 2, of the bitwise result. -/
theorem bitwiseOperationsCombineEachBit : Obligations.BitwiseOperationsCombineEachBit := by
  intro x y s
  refine ⟨⟨decode_orReg x y, _, exec_orReg x y s, writeReg_pc s x _, fun k _ => ?_,
      changesOnly_writeReg s x _⟩,
    ⟨decode_andReg x y, _, exec_andReg x y s, writeReg_pc s x _, fun k _ => ?_,
      changesOnly_writeReg s x _⟩,
    decode_xorReg x y, _, exec_xorReg x y s, writeReg_pc s x _, fun k _ => ?_,
      changesOnly_writeReg s x _⟩
  · rw [getV_writeReg_self, BitVec.getLsbD_or]
  · rw [getV_writeReg_self, BitVec.getLsbD_and]
  · rw [getV_writeReg_self, BitVec.getLsbD_xor]

/-- Settles O23: one register write with PC + 2, of the masked random byte. -/
theorem randomByteIsMasked : Obligations.RandomByteIsMasked := by
  intro x kk s
  refine ⟨decode_rnd x kk, _, exec_rnd x kk s, writeReg_pc s x _, fun k _ => ?_,
    changesOnly_writeReg s x _⟩
  rw [getV_writeReg_self, BitVec.getLsbD_and]

/-! ### Writing a register, then the flag -/

section
variable (s : State) (x : Reg) (b f : Byte)

theorem writeWithFlag_pc : (s.writeWithFlag x b f).pc = s.pc + 2 := rfl

theorem getV_vf_writeWithFlag : (s.writeWithFlag x b f).getV vf = f := by simp

theorem getV_writeWithFlag (hx : x ≠ vf) : (s.writeWithFlag x b f).getV x = b := by simp [hx]

theorem changesOnly_writeWithFlag :
    ChangesOnly (fun p => p = .pc ∨ p = .reg x ∨ p = .reg vf) s (s.writeWithFlag x b f) := by
  intro p hp
  cases p with
  | pc => exact absurd (.inl rfl) hp
  | reg r =>
    have hr : r ≠ x := fun e => hp (.inr (.inl (congrArg Part.reg e)))
    have hr' : r ≠ vf := fun e => hp (.inr (.inr (congrArg Part.reg e)))
    show (s.writeWithFlag x b f).getV r = s.getV r
    simp [hr, hr']
  | _ => rfl

end

/-! ### Addition and subtraction -/

theorem exec_addReg (x y : Reg) (s : State) : exec (.addReg x y) s =
    .next (s.writeWithFlag x (s.getV x + s.getV y) (carryFlag (s.getV x) (s.getV y))) := rfl

theorem exec_subReg (x y : Reg) (s : State) : exec (.subReg x y) s =
    .next (s.writeWithFlag x (s.getV x - s.getV y) (noBorrowFlag (s.getV x) (s.getV y))) := rfl

theorem exec_subnReg (x y : Reg) (s : State) : exec (.subnReg x y) s =
    .next (s.writeWithFlag x (s.getV y - s.getV x) (noBorrowFlag (s.getV y) (s.getV x))) := rfl

theorem decode_addReg (x y : Reg) :
    decode (BitVec.ofNat 16 (0x8004 + x.val * 256 + y.val * 16)) = .ok (.addReg x y) :=
  decode_ofNat (Laws.DecodeEncode.addReg x y rfl) (family8_toNat x y 0x4#4)

theorem decode_subReg (x y : Reg) :
    decode (BitVec.ofNat 16 (0x8005 + x.val * 256 + y.val * 16)) = .ok (.subReg x y) :=
  decode_ofNat (Laws.DecodeEncode.subReg x y rfl) (family8_toNat x y 0x5#4)

theorem decode_subnReg (x y : Reg) :
    decode (BitVec.ofNat 16 (0x8007 + x.val * 256 + y.val * 16)) = .ok (.subnReg x y) :=
  decode_ofNat (Laws.DecodeEncode.subnReg x y rfl) (family8_toNat x y 0x7#4)

theorem carryFlag_eq (a b : Byte) : carryFlag a b = if a.toNat + b.toNat > 255 then 1 else 0 := by
  simp only [carryFlag, flagByte, decide_eq_true_eq]

theorem noBorrowFlag_eq (a b : Byte) : noBorrowFlag a b = if a.toNat ≥ b.toNat then 1 else 0 := by
  simp only [noBorrowFlag, flagByte, decide_eq_true_eq]

/-- The difference of two bytes, as an integer modulo 256. -/
theorem sub_toNat_int (a b : Byte) : ((a - b).toNat : Int) = (a.toNat - b.toNat : Int) % 256 := by
  have := a.isLt
  have := b.isLt
  rw [BitVec.toNat_sub]
  omega

/-- Settles O21: each writes the byte result, then the flag, both from the old values. -/
theorem addAndSubtractSetTheFlag : Obligations.AddAndSubtractSetTheFlag := by
  intro x y s
  refine ⟨⟨decode_addReg x y, _, exec_addReg x y s, writeWithFlag_pc s x _ _, fun hx => ?_, ?_,
      changesOnly_writeWithFlag s x _ _⟩,
    ⟨decode_subReg x y, _, exec_subReg x y s, writeWithFlag_pc s x _ _, fun hx => ?_, ?_,
      changesOnly_writeWithFlag s x _ _⟩,
    decode_subnReg x y, _, exec_subnReg x y s, writeWithFlag_pc s x _ _, fun hx => ?_, ?_,
      changesOnly_writeWithFlag s x _ _⟩
  · rw [getV_writeWithFlag s x _ _ hx, BitVec.toNat_add]
  · rw [getV_vf_writeWithFlag, carryFlag_eq]
  · rw [getV_writeWithFlag s x _ _ hx, sub_toNat_int]
  · rw [getV_vf_writeWithFlag, noBorrowFlag_eq]
  · rw [getV_writeWithFlag s x _ _ hx, sub_toNat_int]
  · rw [getV_vf_writeWithFlag, noBorrowFlag_eq]

/-! ### Shifts -/

theorem exec_shr (x : Reg) (s : State) : exec (.shr x) s =
    .next (s.writeWithFlag x (s.getV x >>> 1) (shiftedOutRight (s.getV x))) := rfl

theorem exec_shl (x : Reg) (s : State) : exec (.shl x) s =
    .next (s.writeWithFlag x (s.getV x <<< 1) (shiftedOutLeft (s.getV x))) := rfl

/-- The number of a packed word of family 8 stands for that word, whatever its field y. -/
theorem ofNat_family8 (x y : Reg) (n : BitVec 4) :
    BitVec.ofNat 16 (0x8000 + n.toNat + x.val * 256 + y.val * 16) = packXYN 0x8#4 x y n := by
  rw [family8_toNat, BitVec.ofNat_toNat, BitVec.setWidth_eq]

theorem decode_shr (x y : Reg) :
    decode (BitVec.ofNat 16 (0x8006 + x.val * 256 + y.val * 16)) = .ok (.shr x) :=
  (congrArg decode (ofNat_family8 x y 0x6#4)).trans ((decode_family8 0x6#4 x y).trans
    (congrArg (fun v => Except.ok (Instr.shr v)) (fieldX_packXYN _ _ _ _)))

theorem decode_shl (x y : Reg) :
    decode (BitVec.ofNat 16 (0x800E + x.val * 256 + y.val * 16)) = .ok (.shl x) :=
  (congrArg decode (ofNat_family8 x y 0xE#4)).trans ((decode_family8 0xE#4 x y).trans
    (congrArg (fun v => Except.ok (Instr.shl v)) (fieldX_packXYN _ _ _ _)))

theorem shiftedOutRight_toNat (a : Byte) : (shiftedOutRight a).toNat = a.toNat % 2 := by
  rw [shiftedOutRight, BitVec.toNat_and]
  exact Nat.and_one_is_mod _

theorem shiftedOutLeft_toNat (a : Byte) : (shiftedOutLeft a).toNat = a.toNat / 128 := by
  have := a.isLt
  have top : (a >>> 7).toNat = a.toNat / 128 := by
    rw [BitVec.toNat_ushiftRight, Nat.shiftRight_eq_div_pow]
  rw [shiftedOutLeft, BitVec.toNat_and, top]
  refine (Nat.and_one_is_mod _).trans ?_
  omega

theorem halved_toNat (a : Byte) : (a >>> 1).toNat = a.toNat / 2 := by
  rw [BitVec.toNat_ushiftRight, Nat.shiftRight_eq_div_pow]

theorem doubled_toNat (a : Byte) : (a <<< 1).toNat = a.toNat * 2 % 256 := by
  rw [BitVec.toNat_shiftLeft, Nat.shiftLeft_eq]

/-- Settles O22: field y plays no part in the decoding, and the bit shifted out is written last. -/
theorem shiftsMoveOneBitIntoTheFlag : Obligations.ShiftsMoveOneBitIntoTheFlag := by
  intro x y s
  refine ⟨⟨decode_shr x y, _, exec_shr x s, writeWithFlag_pc s x _ _, fun hx => ?_, ?_,
      changesOnly_writeWithFlag s x _ _⟩,
    decode_shl x y, _, exec_shl x s, writeWithFlag_pc s x _ _, fun hx => ?_, ?_,
      changesOnly_writeWithFlag s x _ _⟩
  · rw [getV_writeWithFlag s x _ _ hx, halved_toNat]
  · rw [getV_vf_writeWithFlag, shiftedOutRight_toNat]
  · rw [getV_writeWithFlag s x _ _ hx, doubled_toNat]
  · rw [getV_vf_writeWithFlag, shiftedOutLeft_toNat]

end Sys2Proof.Machine
end

section
/-! The index arithmetic and the memory transfers (43_index_memory.md R162..R167, 20_memory.md R62): a
transfer in range writes its bytes or registers with PC + 2, and one out of range only raises. -/

namespace Sys2Proof.Machine

/-! ### Index arithmetic -/

theorem exec_addI (x : Reg) (s : State) :
    exec (.addI x) s = .next (s.setI (s.i + zext16 (s.getV x))).advance := rfl

theorem exec_ldF (x : Reg) (s : State) :
    exec (.ldF x) s = .next (s.setI (zext16 (s.getV x) * 5)).advance := rfl

theorem decode_addI (x : Reg) :
    decode (BitVec.ofNat 16 (0xF01E + x.val * 256)) = .ok (.addI x) :=
  decode_ofNat (Laws.DecodeEncode.addI x rfl) (familyF_toNat x 0x1E#8)

theorem decode_ldF (x : Reg) :
    decode (BitVec.ofNat 16 (0xF029 + x.val * 256)) = .ok (.ldF x) :=
  decode_ofNat (Laws.DecodeEncode.ldF x rfl) (familyF_toNat x 0x29#8)

/-- Settles O25: the word sum wraps, and five times a byte does not reach 2^16. -/
theorem indexArithmetic : Obligations.IndexArithmetic := by
  intro x s
  have sum : (s.i + zext16 (s.getV x)).toNat = (s.i.toNat + (s.getV x).toNat) % 65536 := by
    rw [BitVec.toNat_add, zext16_byte_toNat]
  have glyph : (zext16 (s.getV x) * 5).toNat = (s.getV x).toNat * 5 := by
    have := (s.getV x).isLt
    rw [BitVec.toNat_mul, zext16_byte_toNat]
    exact Nat.mod_eq_of_lt (by show _ * 5 < _; omega)
  exact ⟨⟨decode_addI x, _, exec_addI x s, sum, rfl, changesOnly_setI_advance s _⟩,
    decode_ldF x, _, exec_ldF x s, glyph, rfl, changesOnly_setI_advance s _⟩

/-! ### Writing bytes from I on and advancing -/

theorem changesOnly_setMem_advance {s : State} {m : Memory} {written : Nat → Prop}
    (h : ∀ a, ¬ written a → m.read a = s.mem.read a) :
    ChangesOnly (fun p => p = .pc ∨ ∃ a, written a ∧ p = .byte a) s (s.setMem m).advance := by
  intro p hp
  cases p with
  | pc => exact absurd (.inl rfl) hp
  | byte a => exact h a fun ha => hp (.inr ⟨a, ha, rfl⟩)
  | _ => rfl

/-- A smaller set of written parts is a stronger frame. -/
theorem ChangesOnly.mono {s t : State} {written written' : Part → Prop} (h : ChangesOnly written s t)
    (hw : ∀ p, written p → written' p) : ChangesOnly written' s t :=
  fun p hp => h p fun hp' => hp (hw p hp')

/-- The frame of a write of the bytes `bs` from I on. -/
theorem changesOnly_writeBytes (s : State) (bs : List Byte) :
    ChangesOnly (fun p => p = .pc ∨ ∃ k < bs.length, p = .byte (s.effAddr k)) s
      (s.setMem (s.mem.writeBytes s.i.toNat bs)).advance := by
  have outside (a : Nat) (ha : ¬ ∃ k < bs.length, a = s.effAddr k) :
      (s.mem.writeBytes s.i.toNat bs).read a = s.mem.read a := by
    refine Memory.read_writeBytes_outside _ _ _ _ fun ⟨low, high⟩ => ha ⟨a - s.i.toNat, by omega, ?_⟩
    rw [State.effAddr]
    omega
  refine (changesOnly_setMem_advance outside).mono fun p => ?_
  rintro (pc | ⟨a, ⟨k, hk, rfl⟩, hp⟩)
  · exact .inl pc
  · exact .inr ⟨k, hk, hp⟩

/-- Byte k of the bytes written from I on. -/
theorem read_effAddr_writeBytes (s : State) (bs : List Byte) (k : Nat) (hk : k < bs.length) :
    (s.mem.writeBytes s.i.toNat bs).read (s.effAddr k) = bs[k] := by
  rw [State.effAddr, Memory.read_writeBytes,
    dif_pos ⟨Nat.le_add_right _ _, Nat.add_lt_add_left hk _⟩]
  simp only [Nat.add_sub_cancel_left]

/-! ### The decimal digits -/

theorem decode_ldB (x : Reg) :
    decode (BitVec.ofNat 16 (0xF033 + x.val * 256)) = .ok (.ldB x) :=
  decode_ofNat (Laws.DecodeEncode.ldB x rfl) (familyF_toNat x 0x33#8)

/-- A decimal digit, or a byte's hundreds, is kept by a byte. -/
theorem digit_toNat {d : Nat} (h : d < 10) : (BitVec.ofNat 8 d).toNat = d := by
  rw [BitVec.toNat_ofNat]
  omega

/-- Settles O26: the digits are the three bytes written from I on, or the range check fails. -/
theorem decimalDigitsAreStored : Obligations.DecimalDigitsAreStored := by
  intro x s
  have byte := (s.getV x).isLt
  have stored (k : Nat) (hk : k < 3) := read_effAddr_writeBytes s (decimalDigits (s.getV x)) k hk
  refine ⟨decode_ldB x, fun fits => ⟨_, execLdB_ok x s fits, ?_, ?_, ?_, rfl,
      changesOnly_writeBytes s (decimalDigits (s.getV x))⟩,
    fun beyond => (FailsCheck.ldB x beyond).raises_ofNat (familyF_toNat x 0x33#8)⟩
  · exact (congrArg BitVec.toNat (stored 0 (by decide))).trans (digit_toNat (by omega))
  · exact (congrArg BitVec.toNat (stored 1 (by decide))).trans (digit_toNat (by omega))
  · exact (congrArg BitVec.toNat (stored 2 (by decide))).trans (digit_toNat (by omega))

/-! ### The register block -/

theorem decode_ldStore (x : Reg) :
    decode (BitVec.ofNat 16 (0xF055 + x.val * 256)) = .ok (.ldStore x) :=
  decode_ofNat (Laws.DecodeEncode.ldStore x rfl) (familyF_toNat x 0x55#8)

theorem decode_ldLoad (x : Reg) :
    decode (BitVec.ofNat 16 (0xF065 + x.val * 256)) = .ok (.ldLoad x) :=
  decode_ofNat (Laws.DecodeEncode.ldLoad x rfl) (familyF_toNat x 0x65#8)

/-- Byte I + k after the block V0..Vx is stored from I on. -/
theorem read_stored_block (s : State) {x k : Reg} (hk : k ≤ x) :
    (s.mem.writeBytes s.i.toNat (s.regBlock x)).read (s.effAddr k.val) = s.getV k := by
  have listed : k.val < (s.regBlock x).length := by
    rw [State.length_regBlock]
    exact Nat.lt_succ_of_le hk
  rw [read_effAddr_writeBytes s _ k.val listed, State.getElem_regBlock]

theorem changesOnly_store (x : Reg) (s : State) :
    ChangesOnly (fun p => p = .pc ∨ ∃ k : Reg, k ≤ x ∧ p = .byte (s.effAddr k.val)) s
      (s.setMem (s.mem.writeBytes s.i.toNat (s.regBlock x))).advance := by
  refine (changesOnly_writeBytes s _).mono fun p => ?_
  rintro (pc | ⟨k, hk, hp⟩)
  · exact .inl pc
  · rw [State.length_regBlock] at hk
    exact .inr ⟨⟨k, by omega⟩, Nat.le_of_lt_succ hk, hp⟩

theorem changesOnly_setRegBlock_advance (s : State) (x : Reg) (f : Nat → Byte) :
    ChangesOnly (fun p => p = .pc ∨ ∃ k : Reg, k ≤ x ∧ p = .reg k) s (s.setRegBlock x f).advance := by
  intro p hp
  cases p with
  | pc => exact absurd (.inl rfl) hp
  | reg r =>
    have above : ¬ r.val ≤ x.val := fun hr => hp (.inr ⟨r, hr, rfl⟩)
    show (s.setRegBlock x f).advance.getV r = s.getV r
    rw [State.advance_eq, State.getV_setPc, State.getV_setRegBlock, if_neg above]
  | _ => simp [Unchanged]

/-- Settles O27: the block is the bytes written from I on, or the range check fails. -/
theorem registerBlockIsStored : Obligations.RegisterBlockIsStored := by
  intro x s
  exact ⟨decode_ldStore x,
    fun fits => ⟨_, execLdStore_ok x s fits, fun _ hk => read_stored_block s hk, rfl,
      changesOnly_store x s⟩,
    fun beyond => (FailsCheck.ldStore x beyond).raises_ofNat (familyF_toNat x 0x55#8)⟩

/-- Settles O28: the registers up to Vx are the bytes read, or the range check fails. -/
theorem registerBlockIsLoaded : Obligations.RegisterBlockIsLoaded := by
  intro x s
  refine ⟨decode_ldLoad x, fun fits => ⟨_, execLdLoad_ok x s fits, fun k hk => ?_, ?_,
      changesOnly_setRegBlock_advance s x _⟩,
    fun beyond => (FailsCheck.ldLoad x beyond).raises_ofNat (familyF_toNat x 0x65#8)⟩
  · rw [State.advance_eq, State.getV_setPc, State.getV_setRegBlock, if_pos (Fin.le_def.mp hk)]
  · simp

/-! ### Self-modifying code -/

/-- Settles O29: the two bytes at the even address are the stored registers, and the address is one of an
instruction. -/
theorem storedBytesAreFetched : Obligations.StoredBytesAreFetched := by
  intro x s t j k h fits hk hjk even
  have hkx : k.val ≤ x.val := hk
  have hj : j ≤ x := Fin.le_def.mpr (by omega)
  have next : s.effAddr j.val + 1 = s.effAddr k.val := by rw [State.effAddr, State.effAddr]; omega
  have last : s.effAddr k.val ≤ 0xFFF := by rw [State.effAddr] at fits ⊢; omega
  have pc : (t.setPc (BitVec.ofNat 16 (s.effAddr j.val))).pc.toNat = s.effAddr j.val := by
    rw [State.setPc_pc, BitVec.toNat_ofNat]
    omega
  cases (execLdStore_ok x s fits).symm.trans h
  rw [State.fetch_ok _ (by omega) (by omega), pc, Memory.readWord, next]
  exact congrArg₂ (fun hi lo => Except.ok (joinBytes hi lo)) (read_stored_block s hj)
    (read_stored_block s hk)

end Sys2Proof.Machine
end

section
/-! Drawing a sprite, `DXYN` (44_display.md R182..R186): what one draw does to the cells and to VF, its range
check, and the three edge modes. -/

namespace Sys2Proof.Machine

/-! ### One draw -/

theorem drw_toNat (x y : Reg) {n : Nat} (hn : n ≤ 15) :
    0xD000 + x.val * 256 + y.val * 16 + n = (encode (.drw x y n)).toNat := by
  have row : (BitVec.ofNat 4 n).toNat = n := by
    rw [BitVec.toNat_ofNat]
    omega
  show _ = (packXYN 0xD#4 x y (BitVec.ofNat 4 n)).toNat
  rw [packXYN_toNat, row]
  rfl

theorem decode_drw (x y : Reg) {n : Nat} (hn : n ≤ 15) :
    decode (BitVec.ofNat 16 (0xD000 + x.val * 256 + y.val * 16 + n)) = .ok (.drw x y n) :=
  decode_ofNat (Laws.DecodeEncode.drw x y n (decide_eq_true hn)) (drw_toNat x y hn)

theorem changesOnly_drawSprite (s : State) (mode : EdgeMode) (cx cy : Byte) (n : Nat) :
    ChangesOnly (fun p => p = .pc ∨ p = .reg vf ∨ ∃ q, p = .cell q) s (s.drawSprite mode cx cy n) := by
  intro p hp
  cases p with
  | pc => exact absurd (.inl rfl) hp
  | cell q => exact absurd (.inr (.inr ⟨q, rfl⟩)) hp
  | reg r =>
    have hr : r ≠ vf := fun e => hp (.inr (.inl (congrArg Part.reg e)))
    exact (State.getV_drawSprite s mode cx cy n r).trans (if_neg hr)
  | _ => rfl

/-- VF after a draw is one of the two flags. -/
theorem getV_vf_drawSprite_eq_zero (s : State) (mode : EdgeMode) (cx cy : Byte) (n : Nat)
    (h : (s.drawSprite mode cx cy n).getV vf ≠ 1) : (s.drawSprite mode cx cy n).getV vf = 0 := by
  rw [State.getV_drawSprite, if_pos rfl, collisionFlag] at h ⊢
  rw [flagByte, if_neg (mt (flagByte_eq_one_iff _).mpr h)]

/-- Settles O31: the drawn sprite's cells are distinct, so each is inverted once. -/
theorem drawInvertsTheSpritesCells : Obligations.DrawInvertsTheSpritesCells := by
  intro x y n s hn hrange
  have collides := getV_vf_drawSprite_eq_one_iff s (s.getV x) (s.getV y) n hn
  exact ⟨decode_drw x y hn, _, exec_drw_ok x y n s hrange, rfl, get_drawSprite_ne_iff s _ _ n hn,
    collides.mpr, fun none => getV_vf_drawSprite_eq_zero s _ _ _ n (mt collides.mp none),
    changesOnly_drawSprite s _ _ _ n⟩

/-- Settles O32: the draw's own range check fails. -/
theorem drawOutOfRangeHalts : Obligations.DrawOutOfRangeHalts := by
  intro x y n s hn hn' beyond
  rw [State.effAddr] at beyond
  exact (FailsCheck.drw x y n (by omega) (by omega)).raises_ofNat (drw_toNat x y hn')

/-! ### The edge modes -/

theorem place_wrap_iff (cx cy c r : Nat) (q : Pixel) : place .wrap cx cy c r = some q ↔
    q.1.val = (cx + c) % 64 ∧ q.2.val = (cy + r) % 32 := by
  simp only [place, Option.some.injEq, Prod.ext_iff, Fin.ext_iff, eq_comm]

theorem place_clip_iff (cx cy c r : Nat) (q : Pixel) : place .clip cx cy c r = some q ↔
    q.1.val = cx + c ∧ q.2.val = cy + r := by
  simp only [place]
  split_ifs with on
  · simp only [Option.some.injEq, Prod.ext_iff, Fin.ext_iff, eq_comm]
  · have := q.1.isLt
    have := q.2.isLt
    simp only [false_iff]
    omega

/-- WrapStartClip is Clip from the wrapped corner. -/
theorem place_wrapStartClip (cx cy c r : Nat) :
    place .wrapStartClip cx cy c r = place .clip (cx % 64) (cy % 32) c r := rfl

/-- Settles O33, by the three modes. -/
theorem edgeModesPlacePixels : Obligations.EdgeModesPlacePixels := fun cx cy c r q =>
  ⟨place_wrap_iff cx cy c r q, place_clip_iff cx cy c r q, place_clip_iff (cx % 64) (cy % 32) c r q⟩

/-- On the grid every mode puts a pixel where Clip does. -/
theorem place_eq_clip (mode : EdgeMode) {cx cy c r : Nat} (hx : cx + c < 64) (hy : cy + r < 32) :
    place mode cx cy c r = place .clip cx cy c r := by
  cases mode with
  | clip => rfl
  | wrap => simp only [place, dif_pos (And.intro hx hy), Nat.mod_eq_of_lt hx, Nat.mod_eq_of_lt hy]
  | wrapStartClip =>
    rw [place_wrapStartClip, Nat.mod_eq_of_lt (by omega), Nat.mod_eq_of_lt (by omega)]

theorem rowPixels_eq_clip (mode : EdgeMode) {cx cy r : Nat} (row : Byte) (hx : cx + 7 < 64)
    (hy : cy + r < 32) : rowPixels mode cx cy r row = rowPixels .clip cx cy r row := by
  refine List.filterMap_congr fun c hc => ?_
  rw [List.mem_range] at hc
  rw [place_eq_clip mode (by omega) hy]

theorem spritePixels_eq_clip (mode : EdgeMode) (m : Memory) (base : Nat) {cx cy n : Nat}
    (hx : cx + 7 < 64) (hy : n = 0 ∨ cy + n - 1 ≤ 31) :
    spritePixels mode m base cx cy n = spritePixels .clip m base cx cy n := by
  refine List.flatMap_congr fun r hr => ?_
  rw [List.mem_range] at hr
  exact rowPixels_eq_clip mode _ hx (by omega)

/-- Settles O34: in every mode the sprite toggles the cells that it toggles in Clip. -/
theorem edgeModesAgreeOnTheGrid : Obligations.EdgeModesAgreeOnTheGrid := by
  intro m m' s cx cy n hx hy
  have cells (mode : EdgeMode) : spritePixels mode s.mem (s.effAddr 0) cx.toNat cy.toNat n =
      spritePixels .clip s.mem (s.effAddr 0) cx.toNat cy.toNat n :=
    spritePixels_eq_clip mode _ _ (by omega) hy
  rw [State.drawSprite, State.drawSprite, cells m, cells m']

end Sys2Proof.Machine
end

section
/-! The key skips and the key wait (45_keys_timers.md R200, R201, R203, R206). -/

namespace Sys2Proof.Machine

/-- The number of the word `EXkk`, summed as the statements about family E write it. -/
theorem familyE_toNat (x : Reg) (kk : Byte) :
    0xE000 + kk.toNat + x.val * 256 = (packXK 0xE#4 x kk).toNat :=
  (Nat.add_right_comm _ _ _).trans (packXK_toNat 0xE#4 x kk).symm

theorem decode_skp (x : Reg) : decode (BitVec.ofNat 16 (0xE09E + x.val * 256)) = .ok (.skp x) :=
  decode_ofNat (Laws.DecodeEncode.skp x rfl) (familyE_toNat x 0x9E#8)

theorem decode_sknp (x : Reg) : decode (BitVec.ofNat 16 (0xE0A1 + x.val * 256)) = .ok (.sknp x) :=
  decode_ofNat (Laws.DecodeEncode.sknp x rfl) (familyE_toNat x 0xA1#8)

theorem exec_skp_ok {x k : Reg} {s : State} (h : (s.getV x).toNat = k.val) :
    exec (.skp x) s = .next (s.skipIf s.keys[k.val]) := by
  rw [(Completed.skp (s := s) x (h ▸ k.isLt)).exec_eq]
  simp only [h]

theorem exec_sknp_ok {x k : Reg} {s : State} (h : (s.getV x).toNat = k.val) :
    exec (.sknp x) s = .next (s.skipIf !s.keys[k.val]) := by
  rw [(Completed.sknp (s := s) x (h ▸ k.isLt)).exec_eq]
  simp only [h]

/-- Settles O36: with a key number in range each is one write of PC, chosen by the key. -/
theorem keySkipsReadTheKey : Obligations.KeySkipsReadTheKey := fun x _ s h =>
  ⟨⟨decode_skp x, _, exec_skp_ok h, changesOnly_skipIf s _, rfl⟩,
    decode_sknp x, _, exec_sknp_ok h, changesOnly_skipIf s _, by simp⟩

/-- Settles O37: the check of the key number fails. -/
theorem keySkipsOutOfRangeHalt : Obligations.KeySkipsOutOfRangeHalt := fun x _ above =>
  ⟨(FailsCheck.skp x above).raises_ofNat (familyE_toNat x 0x9E#8),
    (FailsCheck.sknp x above).raises_ofNat (familyE_toNat x 0xA1#8)⟩

/-! ### The key wait -/

theorem exec_ldVxK (x : Reg) (s : State) :
    exec (.ldVxK x) s = .next (s.setStatus (.awaitingKey x s.keys)).advance := rfl

theorem decode_ldVxK (x : Reg) : decode (BitVec.ofNat 16 (0xF00A + x.val * 256)) = .ok (.ldVxK x) :=
  decode_ofNat (Laws.DecodeEncode.ldVxK x rfl) (familyF_toNat x 0x0A#8)

theorem changesOnly_setStatus_advance (s : State) (w : Status) :
    ChangesOnly (fun p => p = .pc ∨ p = .status) s (s.setStatus w).advance := by
  intro p hp
  cases p with
  | pc => exact absurd (.inl rfl) hp
  | status => exact absurd (.inr rfl) hp
  | _ => rfl

/-- Settles O39: the wait is one write of the status with PC + 2. -/
theorem keyWaitBegins : Obligations.KeyWaitBegins := fun x s =>
  ⟨decode_ldVxK x, _, exec_ldVxK x s, rfl, rfl, changesOnly_setStatus_advance s _⟩

end Sys2Proof.Machine
end
